-- ==== Sys2Proof/Word.lean ====
section
/-! DEFINITION. The word and the byte of the elshi CORE (00_scope.md R2, R4, R5): every register, memory word,
instruction and address is 16 bits; `+` on words is addition modulo 65536 by construction of `BitVec`. -/

namespace Sys2Proof

/-- A word: 16 bits, bit 0 the least significant (R2, R4). -/
abbrev Word := BitVec 16

/-- A byte of the program image (R150); the machine itself has no byte (R31). -/
abbrev Byte := BitVec 8

/-- A register number, the value of a 3-bit field (R10): every one names a register. -/
abbrev Reg := Fin 8

/-- One line of console input: its character codes without the terminator, possibly none (R111). -/
abbrev Line := List Word

end Sys2Proof
end

