-- ==== Sys2Proof/Syntax.lean ====
section
/-! DEFINITION. The instructions of the elshi CORE: one constructor for each of the 25 rows of spec/opcode_table.json, carrying the
fields of that row (30_encoding.md R52) and nothing else; ignored bits (R55) are no field. Also the 16 opcode identifiers of R51. -/

namespace Sys2Proof

/-- The 16 opcode identifiers of R51. -/
inductive Opcode where
  | br | add | ld | st | jsr | and | ldr | str | rti | not | ldi | sti | jmp | res | lea | trap
deriving DecidableEq, Repr

/-- An instruction. Register fields are `Reg`, signed fields are bit vectors of the field's width, the branch mask is three flags. -/
inductive Instr where
  /-- BR (R100): mask n, z, p, offset of 9 bits. -/
  | br (n z p : Bool) (off9 : BitVec 9)
  /-- ADD, register form (R80). -/
  | addReg (dr sr1 sr2 : Reg)
  /-- ADD, immediate form (R81). -/
  | addImm (dr sr1 : Reg) (imm5 : BitVec 5)
  /-- LD (R90). -/
  | ld (dr : Reg) (off9 : BitVec 9)
  /-- ST (R91). -/
  | st (sr : Reg) (off9 : BitVec 9)
  /-- JSR, opcode 4 with the long-call bit set (R102). -/
  | jsr (off11 : BitVec 11)
  /-- JSRR, opcode 4 with the long-call bit clear (R103). -/
  | jsrr (baseR : Reg)
  /-- AND, register form (R82). -/
  | andReg (dr sr1 sr2 : Reg)
  /-- AND, immediate form (R83). -/
  | andImm (dr sr1 : Reg) (imm5 : BitVec 5)
  /-- LDR (R94). -/
  | ldr (dr baseR : Reg) (off6 : BitVec 6)
  /-- STR (R95). -/
  | str (sr baseR : Reg) (off6 : BitVec 6)
  /-- RTI, a reserved no-op (R104). -/
  | rti
  /-- NOT (R84). -/
  | not (dr sr : Reg)
  /-- LDI (R92). -/
  | ldi (dr : Reg) (off9 : BitVec 9)
  /-- STI (R93). -/
  | sti (sr : Reg) (off9 : BitVec 9)
  /-- JMP (R101). -/
  | jmp (baseR : Reg)
  /-- RES, a reserved no-op (R105). -/
  | res
  /-- LEA (R96). -/
  | lea (dr : Reg) (off9 : BitVec 9)
  /-- TRAP with a code that no service row takes (R110, R119). -/
  | trap (vect8 : BitVec 8)
  /-- TRAP 0x20, GETC (R112). -/
  | getc
  /-- TRAP 0x21, OUT (R113). -/
  | out
  /-- TRAP 0x22, PUTS (R114). -/
  | puts
  /-- TRAP 0x23, IN (R115). -/
  | inEcho
  /-- TRAP 0x24, PUTSP (R117). -/
  | putsp
  /-- TRAP 0x25, HALT (R118). -/
  | halt
deriving DecidableEq, Repr

/-- The opcode each row belongs to (R51, R63). -/
def Instr.opcode : Instr → Opcode
  | .br _ _ _ _ => .br
  | .addReg _ _ _ => .add
  | .addImm _ _ _ => .add
  | .ld _ _ => .ld
  | .st _ _ => .st
  | .jsr _ => .jsr
  | .jsrr _ => .jsr
  | .andReg _ _ _ => .and
  | .andImm _ _ _ => .and
  | .ldr _ _ _ => .ldr
  | .str _ _ _ => .str
  | .rti => .rti
  | .not _ _ => .not
  | .ldi _ _ => .ldi
  | .sti _ _ => .sti
  | .jmp _ => .jmp
  | .res => .res
  | .lea _ _ => .lea
  | .trap _ => .trap
  | .getc => .trap
  | .out => .trap
  | .puts => .trap
  | .inEcho => .trap
  | .putsp => .trap
  | .halt => .trap

end Sys2Proof
end

