-- ==== Sys2Proof/WellFormed.lean ====
section
/-! DEFINITION. Which terms of `Instr` stand for an instruction word. Every field has the width of its encoding, so there is one check:
a TRAP word whose code is one of the six services belongs to the service's row, not to the TRAP row (30_encoding.md R63). -/

namespace Sys2Proof

/-- The code of a trap service, 0x20 to 0x25 (R110). -/
def isServiceCode (vect8 : BitVec 8) : Bool :=
  decide (0x20 ≤ vect8.toNat) && decide (vect8.toNat ≤ 0x25)

/-- The term is the one the decoder gives some word. -/
def Instr.wf : Instr → Bool
  | .trap vect8 => !isServiceCode vect8
  | .br _ _ _ _ => true
  | .addReg _ _ _ => true
  | .addImm _ _ _ => true
  | .ld _ _ => true
  | .st _ _ => true
  | .jsr _ => true
  | .jsrr _ => true
  | .andReg _ _ _ => true
  | .andImm _ _ _ => true
  | .ldr _ _ _ => true
  | .str _ _ _ => true
  | .rti => true
  | .not _ _ => true
  | .ldi _ _ => true
  | .sti _ _ => true
  | .jmp _ => true
  | .res => true
  | .lea _ _ => true
  | .getc => true
  | .out => true
  | .puts => true
  | .inEcho => true
  | .putsp => true
  | .halt => true

end Sys2Proof
end

