-- ==== Sys2Proof/Decode.lean ====
section
/-! DEFINITION. The decoder (30_encoding.md R50 to R63), then the encoder and the rows of the opcode table. Decoding is total: every one of the
65536 words is an instruction (R54), so nothing is rejected; the source's 'unknown' sentinel cannot occur and has no case (R58). The
opcode numbers and field positions are the spec's, from general knowledge (R51, R52; PRESUMED, log 14). -/

namespace Sys2Proof

/-! ## Fields (R52) -/

/-- `w[hi:lo]` given by its lowest bit and its width (R4). -/
def field (w : Word) (lo width : Nat) : BitVec width := w.extractLsb' lo width

/-- A 3-bit register field (R52). -/
def regField (w : Word) (lo : Nat) : Reg := (field w lo 3).toFin

/-- The opcode of the top four bits `ir[15]`, `ir[14]`, `ir[13]`, `ir[12]` (R50), in the order of R51. -/
def opcodeOfBits : Bool → Bool → Bool → Bool → Opcode
  | false, false, false, false => .br
  | false, false, false, true => .add
  | false, false, true, false => .ld
  | false, false, true, true => .st
  | false, true, false, false => .jsr
  | false, true, false, true => .and
  | false, true, true, false => .ldr
  | false, true, true, true => .str
  | true, false, false, false => .rti
  | true, false, false, true => .not
  | true, false, true, false => .ldi
  | true, false, true, true => .sti
  | true, true, false, false => .jmp
  | true, true, false, true => .res
  | true, true, true, false => .lea
  | true, true, true, true => .trap

/-- The row a TRAP code belongs to (R110): a service, or the TRAP row. -/
def decodeTrap (vect8 : BitVec 8) : Instr :=
  if vect8 = 0x20#8 then .getc
  else if vect8 = 0x21#8 then .out
  else if vect8 = 0x22#8 then .puts
  else if vect8 = 0x23#8 then .inEcho
  else if vect8 = 0x24#8 then .putsp
  else if vect8 = 0x25#8 then .halt
  else .trap vect8

/-- The decoding procedure of R62. -/
def decode (w : Word) : Instr :=
  match opcodeOfBits (w.getLsbD 15) (w.getLsbD 14) (w.getLsbD 13) (w.getLsbD 12) with
  | .br => .br (w.getLsbD 11) (w.getLsbD 10) (w.getLsbD 9) (field w 0 9)
  | .add => if w.getLsbD 5 then .addImm (regField w 9) (regField w 6) (field w 0 5)
      else .addReg (regField w 9) (regField w 6) (regField w 0)
  | .ld => .ld (regField w 9) (field w 0 9)
  | .st => .st (regField w 9) (field w 0 9)
  | .jsr => if w.getLsbD 11 then .jsr (field w 0 11) else .jsrr (regField w 6)
  | .and => if w.getLsbD 5 then .andImm (regField w 9) (regField w 6) (field w 0 5)
      else .andReg (regField w 9) (regField w 6) (regField w 0)
  | .ldr => .ldr (regField w 9) (regField w 6) (field w 0 6)
  | .str => .str (regField w 9) (regField w 6) (field w 0 6)
  | .rti => .rti
  | .not => .not (regField w 9) (regField w 6)
  | .ldi => .ldi (regField w 9) (field w 0 9)
  | .sti => .sti (regField w 9) (field w 0 9)
  | .jmp => .jmp (regField w 6)
  | .res => .res
  | .lea => .lea (regField w 9) (field w 0 9)
  | .trap => decodeTrap (field w 0 8)

/-- The instruction word a numbered row of the opcode table stands for: one word (R50), its bits above `nbits` zero. -/
def tableWord (nbits w : Nat) : Word := BitVec.ofNat 16 (w % 2 ^ nbits)

/-- The instruction the decoder reads from a table row's bits. An instruction is one word of 16 bits (R50): a number that is no
word is no instruction. -/
def decodeTableWord (nbits w : Nat) : Option Instr :=
  if w % 2 ^ nbits < 2 ^ 16 then some (decode (tableWord nbits w)) else none

/-! ## The encoder (R52, R59): ignored bits are zero, but NOT's `ir[5:0]`, which the canonical assembler writes as ones (log 21) -/

/-- A register number as its 3-bit field. -/
def regBits (r : Reg) : BitVec 3 := BitVec.ofFin r

/-- The word of an instruction, written from the formats of R52. -/
def encode : Instr → Word
  | .br n z p off9 => 0x0#4 ++ BitVec.ofBool n ++ BitVec.ofBool z ++ BitVec.ofBool p ++ off9
  | .addReg dr sr1 sr2 => 0x1#4 ++ regBits dr ++ regBits sr1 ++ 0b000#3 ++ regBits sr2
  | .addImm dr sr1 imm5 => 0x1#4 ++ regBits dr ++ regBits sr1 ++ 0b1#1 ++ imm5
  | .ld dr off9 => 0x2#4 ++ regBits dr ++ off9
  | .st sr off9 => 0x3#4 ++ regBits sr ++ off9
  | .jsr off11 => 0x4#4 ++ 0b1#1 ++ off11
  | .jsrr baseR => 0x4#4 ++ 0b000#3 ++ regBits baseR ++ 0b000000#6
  | .andReg dr sr1 sr2 => 0x5#4 ++ regBits dr ++ regBits sr1 ++ 0b000#3 ++ regBits sr2
  | .andImm dr sr1 imm5 => 0x5#4 ++ regBits dr ++ regBits sr1 ++ 0b1#1 ++ imm5
  | .ldr dr baseR off6 => 0x6#4 ++ regBits dr ++ regBits baseR ++ off6
  | .str sr baseR off6 => 0x7#4 ++ regBits sr ++ regBits baseR ++ off6
  | .rti => 0x8000#16
  | .not dr sr => 0x9#4 ++ regBits dr ++ regBits sr ++ 0b111111#6
  | .ldi dr off9 => 0xA#4 ++ regBits dr ++ off9
  | .sti sr off9 => 0xB#4 ++ regBits sr ++ off9
  | .jmp baseR => 0xC#4 ++ 0b000#3 ++ regBits baseR ++ 0b000000#6
  | .res => 0xD000#16
  | .lea dr off9 => 0xE#4 ++ regBits dr ++ off9
  | .trap vect8 => 0xF0#8 ++ vect8
  | .getc => 0xF020#16
  | .out => 0xF021#16
  | .puts => 0xF022#16
  | .inEcho => 0xF023#16
  | .putsp => 0xF024#16
  | .halt => 0xF025#16

/-! ## The rows of the opcode table (R63) -/

/-- The bits of a word that select the instruction's row: the row's "mask" in spec/opcode_table.json. -/
def Instr.rowMask : Instr → Word
  | .br _ _ _ _ => 0xF000
  | .addReg _ _ _ => 0xF020
  | .addImm _ _ _ => 0xF020
  | .ld _ _ => 0xF000
  | .st _ _ => 0xF000
  | .jsr _ => 0xF800
  | .jsrr _ => 0xF800
  | .andReg _ _ _ => 0xF020
  | .andImm _ _ _ => 0xF020
  | .ldr _ _ _ => 0xF000
  | .str _ _ _ => 0xF000
  | .rti => 0xF000
  | .not _ _ => 0xF000
  | .ldi _ _ => 0xF000
  | .sti _ _ => 0xF000
  | .jmp _ => 0xF000
  | .res => 0xF000
  | .lea _ _ => 0xF000
  | .trap _ => 0xF000
  | .getc => 0xF0FF
  | .out => 0xF0FF
  | .puts => 0xF0FF
  | .inEcho => 0xF0FF
  | .putsp => 0xF0FF
  | .halt => 0xF0FF

/-- What those bits hold: the row's "match" in spec/opcode_table.json. -/
def Instr.rowMatch : Instr → Word
  | .br _ _ _ _ => 0x0000
  | .addReg _ _ _ => 0x1000
  | .addImm _ _ _ => 0x1020
  | .ld _ _ => 0x2000
  | .st _ _ => 0x3000
  | .jsr _ => 0x4800
  | .jsrr _ => 0x4000
  | .andReg _ _ _ => 0x5000
  | .andImm _ _ _ => 0x5020
  | .ldr _ _ _ => 0x6000
  | .str _ _ _ => 0x7000
  | .rti => 0x8000
  | .not _ _ => 0x9000
  | .ldi _ _ => 0xA000
  | .sti _ _ => 0xB000
  | .jmp _ => 0xC000
  | .res => 0xD000
  | .lea _ _ => 0xE000
  | .trap _ => 0xF000
  | .getc => 0xF020
  | .out => 0xF021
  | .puts => 0xF022
  | .inEcho => 0xF023
  | .putsp => 0xF024
  | .halt => 0xF025

/-- The bits the instruction does not look at (R55). -/
def Instr.ignoredMask : Instr → Word
  | .br _ _ _ _ => 0x0000
  | .addReg _ _ _ => 0x0018
  | .addImm _ _ _ => 0x0000
  | .ld _ _ => 0x0000
  | .st _ _ => 0x0000
  | .jsr _ => 0x0000
  | .jsrr _ => 0x063F
  | .andReg _ _ _ => 0x0018
  | .andImm _ _ _ => 0x0000
  | .ldr _ _ _ => 0x0000
  | .str _ _ _ => 0x0000
  | .rti => 0x0FFF
  | .not _ _ => 0x003F
  | .ldi _ _ => 0x0000
  | .sti _ _ => 0x0000
  | .jmp _ => 0x0E3F
  | .res => 0x0FFF
  | .lea _ _ => 0x0000
  | .trap _ => 0x0F00
  | .getc => 0x0F00
  | .out => 0x0F00
  | .puts => 0x0F00
  | .inEcho => 0x0F00
  | .putsp => 0x0F00
  | .halt => 0x0F00

end Sys2Proof
end

