-- ==== Sys2Proof/Config.lean ====
section
/-! DEFINITION. What is fixed for the machine: the device addresses (00_scope.md R2) and the open parameters of R3 that no step
changes. The open parameters of reset (INIT_GPR, INIT_COND, INIT_MEM) are arguments of `Machine.boot`. -/

namespace Sys2Proof.Config

/-- KBSR, the address of the Keyboard Status Register (R2, R20). -/
def kbsr : Word := 0xFE00

/-- KBDR, the address of the Keyboard Data Register (R2, R21). -/
def kbdr : Word := 0xFE02

/-- The KBSR word after a poll that captured a character: READY is bit 15, bits 14:0 are zero (R20, R33; log 18). -/
def kbsrReady : Word := 0x8000

/-- The KBSR word after a poll of an empty line (R33). -/
def kbsrIdle : Word := 0x0000

/-- The maximum representable address, at which the loop guard fails (R70). -/
def topAddress : Word := 0xFFFF

/-- MEMWORDS (R2). -/
def memWords : Nat := 65536

/-- DEFAULT_ORIGIN (R2, R26): the conventional origin. No rule uses it; `State.reset` does (DESIGN CHOICE, log 5). -/
def defaultOrigin : Word := 0x3000

/-- What a memory word that nothing has written reads as: the spec gives no value (INIT_MEM, R3, R28) and names zero as a
simulator's default. DESIGN CHOICE, unsafe, log 2. Any other initial memory is a memory list, an argument of `boot`. -/
def unlistedWord : Word := 0x0000

/-- HALT_NOTICE, what TRAP 0x25 prints (R3, R118): an open parameter, so it has no body (log 12). -/
opaque haltNotice : List Word

/-- NEWLINE, the code of a newline on the console output port (R3, R111): an open parameter, so it has no body (log 13). -/
opaque newline : Word

end Sys2Proof.Config
end

