-- ==== Sys2Proof/Machine/State.lean ====
section
/-! DEFINITION. The whole state of the elshi CORE (10_state.md R25) with the console's two sequences (R24), the reasons a step can stop, and the
state after reset. -/

namespace Sys2Proof.Machine

/-- The condition code: exactly one of Positive, Zero, Negative (R15). -/
inductive Cond where
  | p | z | n
deriving DecidableEq, Repr

/-- The run state (R23). -/
inductive RunState where
  | running
  /-- TRAP 0x25 was executed (R118). -/
  | halted
  /-- TRAP with an unknown code was executed (R119). -/
  | faulted
  /-- `pc` was 0xFFFF at the loop guard (R74). -/
  | loopExit
deriving DecidableEq, Repr

/-- One listed memory word with its address (R22; the word is the smallest unit, R31; log 1). -/
abbrev Cell := Nat × Word

/-- Memory: the words that differ from `Config.unlistedWord`, by rising address. -/
abbrev Memory := List Cell

/-- The state (R25) and the console sequences (R24). KBSR and KBDR are `mem` at 0xFE00 and 0xFE02 (R20, R21). -/
structure State where
  /-- R0 to R7 (R10). -/
  regs : Vector Word 8
  /-- The program counter (R12). -/
  pc : Word
  /-- The condition code (R15). -/
  cond : Cond
  /-- The 65536 words of memory (R22). -/
  mem : Memory
  /-- The run state (R23). -/
  run : RunState
  /-- The lines the console input port will still deliver, the next one first (R24). -/
  consoleIn : List Line
  /-- The codes written to the console output port, the oldest first (R24). -/
  consoleOut : List Word
deriving DecidableEq, Repr

/-- Why the machine stops. -/
inductive Fault where
  /-- Raised by `step` alone, in a state whose run has ended: no further step exists (R23, R76, R78). Safe (log 10). -/
  | runEnded (how : RunState)
deriving DecidableEq, Repr

/-- Why an instruction is refused. -/
inductive Refusal where
  /-- Raised by `exec` for an instruction that has no meaning yet; no arm raises it. Safe. -/
  | notModelled (mnemonic : String)
  /-- Raised by GETC and IN (and TRAP with their codes) when the line read is empty: the spec gives the step no meaning and
  says that it is refused (R121). Safe (log 9). -/
  | noFirstCharacter
deriving DecidableEq, Repr

/-- The answer of a step or of an instruction. -/
abbrev Answer := Host.Outcome State Fault Refusal

/-- The state after reset with no program in memory: `run` and `consoleOut` as R28, R29 give them; the open parameters of R3 at
the spec's defaults (DESIGN CHOICE, unsafe: memory log 2, registers log 3, condition code log 4), `pc` at the conventional
origin (DESIGN CHOICE, log 5), no console line to come (DESIGN CHOICE, log 6). It is what `boot` gives for the image that is
the origin word 0x3000 alone (R153). -/
def State.reset : State where
  regs := Vector.replicate 8 0
  pc := Config.defaultOrigin
  cond := .z
  mem := []
  run := .running
  consoleIn := []
  consoleOut := []

end Sys2Proof.Machine
end

