-- ==== Sys2Proof/Machine/Ops.lean ====
section
/-! DEFINITION. The named operations over registers, memory, the console and the run state, each written once (00_scope.md R8).
Taking an exception and returning from one are no operations of this hardware: it raises none (60_exceptions.md R130, R136, R137). -/

namespace Sys2Proof.Machine

/-! ## Memory as a list (R22, R28) -/

/-- The word at an address; an unlisted address reads as `Config.unlistedWord`. -/
def Memory.read (m : Memory) (a : Nat) : Word :=
  match m with
  | [] => Config.unlistedWord
  | (k, v) :: rest => if k = a then v else Memory.read rest a

/-- Put a word in front of a list unless an unlisted address reads as it. -/
def Memory.cons (a : Nat) (v : Word) (m : Memory) : Memory :=
  if v = Config.unlistedWord then m else (a, v) :: m

/-- Store a word, keeping the canonical form. -/
def Memory.write (m : Memory) (a : Nat) (v : Word) : Memory :=
  match m with
  | [] => Memory.cons a v []
  | (k, w) :: rest =>
    if a < k then Memory.cons a v ((k, w) :: rest)
    else if a = k then Memory.cons a v rest
    else (k, w) :: Memory.write rest a v

/-- The canonical form: addresses inside the 65536 words and strictly rising, no entry equal to what an unlisted address reads as. -/
abbrev Memory.wf (m : Memory) : Prop :=
  m.Pairwise (fun c d => c.1 < d.1) ∧ ∀ c ∈ m, c.1 < Config.memWords ∧ c.2 ≠ Config.unlistedWord

/-! ## Registers and the program counter (R10, R13) -/

/-- `x[r]` (R10): no register is hard-wired. -/
def State.reg (s : State) (r : Reg) : Word := s.regs[r]

/-- `x[r] <- v` (R10). -/
def State.setReg (s : State) (r : Reg) (v : Word) : State := { s with regs := s.regs.set r v }

/-- `pc <- target` (R13). -/
def State.setPc (s : State) (target : Word) : State := { s with pc := target }

/-! ## The console ports (R111) -/

/-- `ConsoleReadLine()`: the next line and the state without it; none while no line has been delivered (it blocks). -/
def State.consoleReadLine (s : State) : Option (Line × State) :=
  match s.consoleIn with
  | [] => none
  | line :: rest => some (line, { s with consoleIn := rest })

/-- `ConsoleWrite` of the codes in order. -/
def State.consoleWrite (s : State) (codes : List Word) : State := { s with consoleOut := s.consoleOut ++ codes }

/-! ## Memory accesses of the core (R32 to R36) -/

/-- `mem[a]`, with no side effect (R8). -/
def State.word (s : State) (a : Word) : Word := s.mem.read a.toNat

/-- `mem[a] <- v`, with no side effect (R8). -/
def State.setWord (s : State) (a v : Word) : State := { s with mem := s.mem.write a.toNat v }

/-- `KeyboardPoll()` (R33): takes one line; none while there is none. -/
def State.keyboardPoll (s : State) : Option State :=
  match s.consoleReadLine with
  | none => none
  | some ([], t) => some (t.setWord Config.kbsr Config.kbsrIdle)
  | some (c :: _, t) => some ((t.setWord Config.kbsr Config.kbsrReady).setWord Config.kbdr c)

/-- `MemRead(a, 1)` (R32): a read of KBSR polls first; none while the poll blocks. -/
def State.memRead (s : State) (a : Word) : Option (Word × State) :=
  if a = Config.kbsr then
    match s.keyboardPoll with
    | none => none
    | some t => some (t.word a, t)
  else some (s.word a, s)

/-- `MemWrite(a, 1, v)` (R34): plain storage at every address. -/
def State.memWrite (s : State) (a v : Word) : State := s.setWord a v

/-! ## Waiting for a line (R47) -/

/-- The answer of an instruction that needs a console line when none is left: the core has not taken the step and waits with all state
unchanged (R47), so the program counter stands at the instruction again (log 7, log 8). -/
def State.waitForLine (s : State) : Answer := .next (s.setPc (s.pc - 1#16))

/-! ## The string reads of PUTS and PUTSP (R114, R117) -/

/-- The loop of R114: read words from `a` upward, hand the codes of each non-zero word to the console, end at a zero word. None
when a read blocks, or when `fuel` words hold no zero word (a hang, R120; with `scanFuel` that is never the reason, log 20). -/
def State.scanString (codes : Word → List Word) : Nat → Word → State → Option State
  | 0, _, _ => none
  | fuel + 1, a, s =>
    match s.memRead a with
    | none => none
    | some (w, t) =>
      if w = 0x0000#16 then some t
      else State.scanString codes fuel (a + 1#16) (t.consoleWrite (codes w))

/-- Enough words for every scan of the state to end or to block: each pass over the 65536 addresses takes a line at KBSR. -/
def State.scanFuel (s : State) : Nat := Config.memWords * (s.consoleIn.length + 1)

/-- A low and a high byte as the console codes of PUTSP (R117): the low byte always, the high byte only if it is not zero. -/
def packedCodes (w : Word) : List Word :=
  if w.extractLsb' 8 8 = 0#8 then [(w.extractLsb' 0 8).zeroExtend 16]
  else [(w.extractLsb' 0 8).zeroExtend 16, (w.extractLsb' 8 8).zeroExtend 16]

/-! ## The run state, the loop guard and the fetch (R70 to R76) -/

/-- `stop(outcome)` (R76): everything else stays. -/
def State.stop (s : State) (outcome : RunState) : State := { s with run := outcome }

/-- The loop guard on the program counter (R70). -/
def State.loopGuard (s : State) : Bool := decide (s.pc ≠ Config.topAddress)

/-- The fetch and the increment (R71, R72): the instruction word and the state the instruction executes in; none while a
fetch from KBSR blocks. -/
def State.fetch (s : State) : Option (Word × State) :=
  match s.memRead s.pc with
  | none => none
  | some (ir, t) => some (ir, t.setPc (t.pc + 1#16))

/-- The exit status the host is given (R23, R156). -/
def RunState.exitStatus : RunState → Option Nat
  | .running => none
  | .halted => some 0
  | .faulted => some 1
  | .loopExit => none

end Sys2Proof.Machine
end

