-- ==== Sys2Proof/Machine/Flags.lean ====
section
/-! DEFINITION. The condition code: `setcc` (10_state.md R16) and the test of BR (R18, R100). There is no other flag (R15). -/

namespace Sys2Proof.Machine

/-- The condition of a word: zero, top bit set, or neither (R16). -/
def condOf (v : Word) : Cond :=
  if v = 0x0000#16 then .z else if v.getLsbD 15 then .n else .p

/-- `setcc(r)` (R16): from the current value of the register. -/
def State.setcc (s : State) (r : Reg) : State := { s with cond := condOf (s.reg r) }

/-- Write the destination register, then recompute the condition code from it: the end of the seven instructions of R17. -/
def State.setRegCC (s : State) (dr : Reg) (v : Word) : State := (s.setReg dr v).setcc dr

/-- The one-hot view of the condition code (R18; PRESUMED by the spec, log 15). -/
def ccbits : Cond → BitVec 3
  | .n => 0b100
  | .z => 0b010
  | .p => 0b001

/-- The branch mask `ir[11:9]` made of its three flags (R52). -/
def branchMask (n z p : Bool) : BitVec 3 := BitVec.ofBool n ++ BitVec.ofBool z ++ BitVec.ofBool p

/-- The test of BR (R100). -/
def branchTaken (n z p : Bool) (c : Cond) : Bool := decide (branchMask n z p &&& ccbits c ≠ 0)

end Sys2Proof.Machine
end

