-- ==== Sys2Proof/Machine/Operands.lean ====
section
/-! DEFINITION. The operand forms (30_encoding.md R53; 42_load_store.md R97): sign-extended fields and the effective addresses made of
them. Every sum is modulo 65536 (20_memory.md R36) and none writes a register. -/

namespace Sys2Proof.Machine

/-- `sext_N(f)` as R7 gives it: a field whose top bit is 1 is ORed with ones above its width. -/
def sext {n : Nat} (f : BitVec n) : Word :=
  if f.getLsbD (n - 1) then f.setWidth 16 ||| (0xFFFF#16 <<< n) else f.setWidth 16

/-- The PC-relative operand: `pc + sext_N(f)`, `pc` being the incremented program counter (R12, R53, R97). -/
def State.pcRelative {n : Nat} (s : State) (off : BitVec n) : Word := s.pc + sext off

/-- The base plus offset operand: `x[BaseR] + sext_6(off6)` (R97). -/
def State.basePlus {n : Nat} (s : State) (baseR : Reg) (off : BitVec n) : Word := s.reg baseR + sext off

end Sys2Proof.Machine
end

