-- ==== Sys2Proof/Machine/ArithLogic.lean ====
section
/-! DEFINITION. ADD, AND and NOT (41_arithmetic_logic.md R80 to R87): operands first, then the destination and the condition code. -/

namespace Sys2Proof.Machine

/-- ADD, register form (R80). -/
def execAddReg (dr sr1 sr2 : Reg) (s : State) : Answer := .next (s.setRegCC dr (s.reg sr1 + s.reg sr2))

/-- ADD, immediate form (R81). -/
def execAddImm (dr sr1 : Reg) (imm5 : BitVec 5) (s : State) : Answer := .next (s.setRegCC dr (s.reg sr1 + sext imm5))

/-- AND, register form (R82). -/
def execAndReg (dr sr1 sr2 : Reg) (s : State) : Answer := .next (s.setRegCC dr (s.reg sr1 &&& s.reg sr2))

/-- AND, immediate form (R83). -/
def execAndImm (dr sr1 : Reg) (imm5 : BitVec 5) (s : State) : Answer := .next (s.setRegCC dr (s.reg sr1 &&& sext imm5))

/-- NOT (R84). -/
def execNot (dr sr : Reg) (s : State) : Answer := .next (s.setRegCC dr (~~~ s.reg sr))

end Sys2Proof.Machine
end

