-- ==== Sys2Proof/Machine/Control.lean ====
section
/-! DEFINITION. BR, JMP, JSR, JSRR and the reserved no-ops RTI and RES (43_control_transfer.md R100 to R108). `pc` is the incremented
program counter throughout (10_state.md R12). -/

namespace Sys2Proof.Machine

/-- The link register, R7 (R106). -/
def linkReg : Reg := 7

/-- BR (R100). -/
def execBr (n z p : Bool) (off9 : BitVec 9) (s : State) : Answer :=
  if branchTaken n z p s.cond then .next (s.setPc (s.pcRelative off9)) else .next s

/-- JMP (R101). -/
def execJmp (baseR : Reg) (s : State) : Answer := .next (s.setPc (s.reg baseR))

/-- JSR (R102). -/
def execJsr (off11 : BitVec 11) (s : State) : Answer :=
  .next ((s.setReg linkReg s.pc).setPc (s.pcRelative off11))

/-- JSRR (R103): R7 is written first and the base register is read after it. -/
def execJsrr (baseR : Reg) (s : State) : Answer :=
  let t := s.setReg linkReg s.pc
  .next (t.setPc (t.reg baseR))

/-- RTI (R104): nothing. -/
def execRti (s : State) : Answer := .next s

/-- RES (R105): nothing. -/
def execRes (s : State) : Answer := .next s

end Sys2Proof.Machine
end

