-- ==== Sys2Proof/Machine/LoadStore.lean ====
section
/-! DEFINITION. LD, ST, LDI, STI, LDR, STR and LEA (42_load_store.md R90 to R98). A read may poll the keyboard and wait for a line
(20_memory.md R32, R47); the wait leaves the state the instruction began in. -/

namespace Sys2Proof.Machine

/-- Load the word at `ea` into `dr` (R90, R94); `s` is the state the instruction began in. -/
def State.loadInto (s : State) (dr : Reg) (ea : Word) : Answer :=
  match s.memRead ea with
  | none => s.waitForLine
  | some (v, t) => .next (t.setRegCC dr v)

/-- LD (R90). -/
def execLd (dr : Reg) (off9 : BitVec 9) (s : State) : Answer := s.loadInto dr (s.pcRelative off9)

/-- ST (R91). -/
def execSt (sr : Reg) (off9 : BitVec 9) (s : State) : Answer := .next (s.memWrite (s.pcRelative off9) (s.reg sr))

/-- LDI (R92): the pointer, then the datum. -/
def execLdi (dr : Reg) (off9 : BitVec 9) (s : State) : Answer :=
  match s.memRead (s.pcRelative off9) with
  | none => s.waitForLine
  | some (ptr, t) =>
    match t.memRead ptr with
    | none => s.waitForLine
    | some (v, u) => .next (u.setRegCC dr v)

/-- STI (R93): the pointer is read, then the word is stored. -/
def execSti (sr : Reg) (off9 : BitVec 9) (s : State) : Answer :=
  match s.memRead (s.pcRelative off9) with
  | none => s.waitForLine
  | some (ptr, t) => .next (t.memWrite ptr (t.reg sr))

/-- LDR (R94). -/
def execLdr (dr baseR : Reg) (off6 : BitVec 6) (s : State) : Answer := s.loadInto dr (s.basePlus baseR off6)

/-- STR (R95). -/
def execStr (sr baseR : Reg) (off6 : BitVec 6) (s : State) : Answer := .next (s.memWrite (s.basePlus baseR off6) (s.reg sr))

/-- LEA (R96): no memory access. -/
def execLea (dr : Reg) (off9 : BitVec 9) (s : State) : Answer := .next (s.setRegCC dr (s.pcRelative off9))

end Sys2Proof.Machine
end

