-- ==== Sys2Proof/Machine/TrapIo.lean ====
section
/-! DEFINITION. TRAP and its services (44_trap_io.md R110 to R123). A service runs inside the step: no vector table, no write of R7, no
write of the condition code (R110, R123). -/

namespace Sys2Proof.Machine

/-- The data register of the services, R0 (60_exceptions.md R140). -/
def dataReg : Reg := 0

/-- Read a line, put its first code into R0 and hand `echo` of it to the console (R112, R115). On an empty line the spec gives no
meaning and the step is refused (R121). -/
def State.readCharacter (echo : Word → List Word) (s : State) : Answer :=
  match s.consoleReadLine with
  | none => s.waitForLine
  | some ([], _) => .refused .noFirstCharacter
  | some (c :: _, t) => .next ((t.setReg dataReg c).consoleWrite (echo c))

/-- Write the string that R0 points to (R114, R117). -/
def State.writeString (codes : Word → List Word) (s : State) : Answer :=
  match State.scanString codes s.scanFuel (s.reg dataReg) s with
  | none => s.waitForLine
  | some t => .next t

/-- GETC (R112): no echo. -/
def serviceGetc (s : State) : Answer := s.readCharacter (fun _ => [])

/-- OUT (R113): the whole word R0, then a newline. -/
def serviceOut (s : State) : Answer := .next (s.consoleWrite [s.reg dataReg, Config.newline])

/-- PUTS (R114): each word is one code. -/
def servicePuts (s : State) : Answer := s.writeString (fun w => [w])

/-- IN (R115): echo and a newline, no prompt. -/
def serviceIn (s : State) : Answer := s.readCharacter (fun c => [c, Config.newline])

/-- PUTSP (R117): each word packs two codes. -/
def servicePutsp (s : State) : Answer := s.writeString packedCodes

/-- HALT (R118): the notice, then the end of the run. -/
def serviceHalt (s : State) : Answer := .next ((s.consoleWrite Config.haltNotice).stop .halted)

/-- An unknown trap code (R119): the end of the run, nothing written. -/
def serviceUnknown (s : State) : Answer := .next (s.stop .faulted)

/-- TRAP (R110): dispatch on the code. The decoder gives service codes to the rows below, so of well-formed instructions only the
last case remains (log 25). -/
def execTrap (vect8 : BitVec 8) (s : State) : Answer :=
  if vect8 = 0x20#8 then serviceGetc s
  else if vect8 = 0x21#8 then serviceOut s
  else if vect8 = 0x22#8 then servicePuts s
  else if vect8 = 0x23#8 then serviceIn s
  else if vect8 = 0x24#8 then servicePutsp s
  else if vect8 = 0x25#8 then serviceHalt s
  else serviceUnknown s

/-- GETC (R112). -/
def execGetc (s : State) : Answer := serviceGetc s

/-- OUT (R113). -/
def execOut (s : State) : Answer := serviceOut s

/-- PUTS (R114). -/
def execPuts (s : State) : Answer := servicePuts s

/-- IN (R115). -/
def execIn (s : State) : Answer := serviceIn s

/-- PUTSP (R117). -/
def execPutsp (s : State) : Answer := servicePutsp s

/-- HALT (R118). -/
def execHalt (s : State) : Answer := serviceHalt s

end Sys2Proof.Machine
end

