-- ==== Sys2Proof/Machine/Step.lean ====
section
/-! DEFINITION. One step of the core (40_execution_loop.md R70 to R78), and the placing of an instruction word for the host's questions. -/

namespace Sys2Proof.Machine

/-- The step (R78): no step when the run has ended (log 10); LoopExit when the guard fails (R74); otherwise fetch, increment,
decode and execute. While the fetch waits for a console line the core has no step and all state is unchanged (R47, log 7). -/
def step (s : State) : Host.Outcome State Fault Refusal :=
  if s.run ≠ .running then .fault (.runEnded s.run)
  else if s.loopGuard then
    match s.fetch with
    | none => .next s
    | some (ir, t) => exec (decode ir) t
  else .next (s.stop .loopExit)

/-- Where the next instruction can be fetched as it stands in memory: at `pc`, unless `pc` is the address where nothing is fetched
(R70) or the one whose read polls and overwrites the word (R71). -/
def State.fetchPlace (s : State) : Word :=
  if s.pc = Config.topAddress ∨ s.pc = Config.kbsr then Config.defaultOrigin else s.pc

/-- The state with an instruction word stored where the very next step fetches it (log 26). -/
def State.withFetchWord (s : State) (nbits w : Nat) : State :=
  { (s.setWord s.fetchPlace (tableWord nbits w)) with pc := s.fetchPlace, run := .running }

end Sys2Proof.Machine
end

