-- ==== Sys2Proof/Machine/Boot.lean ====
section
/-! DEFINITION. Reset is the loading of a program image (70_reset_and_hazards.md R150 to R154): parsing, the load errors, placement, and
the state the core comes into existence with. -/

namespace Sys2Proof.Machine

/-- The open parameters of reset (R3, R27, R28). Every content of the 65536 words is some canonical memory list. -/
structure OpenReset where
  /-- INIT_GPR. -/
  gpr : Vector Word 8
  /-- INIT_COND. -/
  cond : Cond
  /-- INIT_MEM. -/
  mem : Memory
deriving DecidableEq, Repr

/-- The defaults R3 names for a simulator. -/
def OpenReset.default : OpenReset where
  gpr := Vector.replicate 8 0
  cond := .z
  mem := []

/-- What the loader supplies (R150): the image bytes, or a byte source that fails (R154). -/
inductive ImageSource where
  | bytes (b : List Byte)
  | failed
deriving DecidableEq, Repr

/-- Why no core is created. -/
inductive LoadError where
  /-- The byte source failed (R154 a). -/
  | sourceFailed
  /-- Truncation before the origin word (R154 b). -/
  | truncated
  /-- The stream ends mid-word (R154 c). -/
  | oddLength
  /-- The words would pass the top of memory: refused at load (R152; log 24). -/
  | pastTop
deriving DecidableEq, Repr

/-- Big-endian words of a byte stream, the first byte of a pair being bits 15:8 (R150); none for an odd length. -/
def imageWords : List Byte → Option (List Word)
  | [] => some []
  | [_] => none
  | hi :: lo :: rest =>
    match imageWords rest with
    | none => none
    | some ws => some ((hi ++ lo) :: ws)

/-- Direct storage of words at consecutive addresses (R151, R152), without side effects. -/
def placeWords (m : Memory) (a : Nat) : List Word → Memory
  | [] => m
  | w :: ws => placeWords (m.write a w) (a + 1) ws

/-- The state after the origin and the words have been loaded (R151). -/
def bootState (p : OpenReset) (lines : List Line) (origin : Word) (words : List Word) : State where
  regs := p.gpr
  pc := origin
  cond := p.cond
  mem := placeWords p.mem origin.toNat words
  run := .running
  consoleIn := lines
  consoleOut := []

/-- The reset sequence (R151): `lines` is what the environment will supply on the console (R28). -/
def boot (p : OpenReset) (lines : List Line) : ImageSource → Except LoadError State
  | .failed => .error .sourceFailed
  | .bytes b =>
    if b.length < 2 then .error .truncated
    else
      match imageWords b with
      | none => .error .oddLength
      | some [] => .error .truncated
      | some (origin :: words) =>
        if origin.toNat + words.length ≤ Config.memWords then .ok (bootState p lines origin words)
        else .error .pastTop

end Sys2Proof.Machine
end

