-- ==== Sys2Proof/Safety.lean ====
section
/-! DEFINITION. What the statements call a good state, a good run and a register, memory or console effect: the words in which claims
about this machine are made. Nothing here is used by the machine. -/

namespace Sys2Proof.Machine

/-! ## Good states and ends of a run -/

/-- The invariant of the machine: memory keeps its canonical form, and a run that ended in LoopExit stands at the top address (R74). -/
def State.Inv (s : State) : Prop := s.mem.wf ∧ (s.run = .loopExit → s.pc = Config.topAddress)

/-- The only successful end of a run (R76). -/
def State.endedWell (s : State) : Prop := s.run = .halted

/-- A step fetches an instruction: the run goes on and the loop guard holds (R70). -/
def State.Fetches (s : State) : Prop := s.run = .running ∧ s.pc ≠ Config.topAddress

/-- A read of the address does not wait: it polls only at KBSR, and then a line is there (R32, R47). -/
def State.CanRead (s : State) (a : Word) : Prop := a = Config.kbsr → s.consoleIn ≠ []

/-! ## The signed reading of a word (R6, R87) -/

/-- The condition of a word by its signed value (R16, R87). -/
def signCond (v : Word) : Cond := if v.toInt < 0 then .n else if v.toInt = 0 then .z else .p

/-- A word moved by a signed distance, modulo 65536 (R5, R36). -/
def wordPlus (a : Word) (d : Int) : Word := BitVec.ofInt 16 (a.toInt + d)

/-! ## What an instruction may write -/

/-- The destination whose value the condition code is computed from, for the seven instructions of R17. -/
def condReg : Instr → Option Reg
  | .addReg dr _ _ => some dr
  | .addImm dr _ _ => some dr
  | .andReg dr _ _ => some dr
  | .andImm dr _ _ => some dr
  | .not dr _ => some dr
  | .ld dr _ => some dr
  | .ldi dr _ => some dr
  | .ldr dr _ _ => some dr
  | .lea dr _ => some dr
  | .br _ _ _ _ => none
  | .st _ _ => none
  | .jsr _ => none
  | .jsrr _ => none
  | .str _ _ _ => none
  | .rti => none
  | .sti _ _ => none
  | .jmp _ => none
  | .res => none
  | .trap _ => none
  | .getc => none
  | .out => none
  | .puts => none
  | .inEcho => none
  | .putsp => none
  | .halt => none

/-- The general register an instruction writes, from the table of R11 (TRAP with a code of GETC or IN among them, R110). -/
def writtenReg : Instr → Option Reg
  | .addReg dr _ _ => some dr
  | .addImm dr _ _ => some dr
  | .andReg dr _ _ => some dr
  | .andImm dr _ _ => some dr
  | .not dr _ => some dr
  | .ld dr _ => some dr
  | .ldi dr _ => some dr
  | .ldr dr _ _ => some dr
  | .lea dr _ => some dr
  | .jsr _ => some 7
  | .jsrr _ => some 7
  | .getc => some 0
  | .inEcho => some 0
  | .trap vect8 => if vect8 = 0x20#8 ∨ vect8 = 0x23#8 then some 0 else none
  | .br _ _ _ _ => none
  | .st _ _ => none
  | .str _ _ _ => none
  | .rti => none
  | .sti _ _ => none
  | .jmp _ => none
  | .res => none
  | .out => none
  | .puts => none
  | .putsp => none
  | .halt => none

/-- The address an instruction stores a word to, with the expressions its meaning uses (R91, R93, R95); the pointer of STI is
read in the state the instruction begins in. -/
def storeAddress (s : State) : Instr → Option Word
  | .st _ off9 => some (s.pcRelative off9)
  | .str _ baseR off6 => some (s.basePlus baseR off6)
  | .sti _ off9 => (s.memRead (s.pcRelative off9)).map (fun r => r.1)
  | .br _ _ _ _ => none
  | .addReg _ _ _ => none
  | .addImm _ _ _ => none
  | .ld _ _ => none
  | .jsr _ => none
  | .jsrr _ => none
  | .andReg _ _ _ => none
  | .andImm _ _ _ => none
  | .ldr _ _ _ => none
  | .rti => none
  | .not _ _ => none
  | .ldi _ _ => none
  | .jmp _ => none
  | .res => none
  | .lea _ _ => none
  | .trap _ => none
  | .getc => none
  | .out => none
  | .puts => none
  | .inEcho => none
  | .putsp => none
  | .halt => none

/-! ## The string loop as the spec writes it -/

/-- The loop of R114 and R117 with no bound: a run of it from address `a` and a state to the state at its end. -/
inductive StringScan (codes : Word → List Word) : Word → State → State → Prop where
  /-- The word read is zero: the loop ends. -/
  | stop {a : Word} {s t : State} : s.memRead a = some (0x0000#16, t) → StringScan codes a s t
  /-- The word read is not zero: its codes are written and the loop goes on at the next address. -/
  | more {a w : Word} {s t u : State} : s.memRead a = some (w, t) → w ≠ 0x0000#16 →
      StringScan codes (a + 1#16) (t.consoleWrite (codes w)) u → StringScan codes a s u

/-! ## Views of the console for comparing runs -/

/-- The state with only the first character of every line to come (R24: the others are kept nowhere). -/
def State.firstCharacters (s : State) : State := { s with consoleIn := s.consoleIn.map (fun line => line.take 1) }

/-- An answer with its next state changed. -/
def mapNext (f : State → State) : Answer → Answer
  | .next s => .next (f s)
  | .fault r => .fault r
  | .refused r => .refused r

/-- The bytes of an image: words in big-endian order (R150). -/
def imageBytes (words : List Word) : List Byte :=
  words.flatMap (fun w => [w.extractLsb' 8 8, w.extractLsb' 0 8])

end Sys2Proof.Machine
end

