-- ==== Sys2Proof/Certificates/Slice0/Obligations.lean ====
section
/-! DEFINITION. The statements for the provers, rule by rule of spec/. In a statement about `exec` the program counter of the state is the
incremented one (10_state.md R12). A next state written as an update of the old one says by that what stays unchanged. Every statement
about words rests on the opcode numbers and field positions that the spec takes from general knowledge (D1, D2; log 14). -/

open Sys2Proof Sys2Proof.Machine

/-! ## Encoding -/

/-- R62: decoding the encoding of a well-formed instruction gives the instruction back, with every operand at every value. -/
def Obligations.DecodeOfEncodeIsTheInstruction : Prop :=
  ∀ i : Instr, i.wf = true → decode (encode i) = i

/-- R54, R63: every word is a well-formed instruction that matches its row of the opcode table, and of all rows that match the word
its own has the most specific mask. -/
def Obligations.EveryWordMatchesItsMostSpecificRow : Prop :=
  ∀ w : Word, (decode w).wf = true ∧ w &&& (decode w).rowMask = (decode w).rowMatch ∧
    ∀ j : Instr, w &&& j.rowMask = j.rowMatch →
      j.rowMask &&& (decode w).rowMask = j.rowMask ∧
      (j.rowMask = (decode w).rowMask → j.rowMatch = (decode w).rowMatch)

/-- R55: two words that differ only in ignored bits are the same instruction, and the encoder writes ignored bits as zeros, except
NOT's, which it writes as ones. -/
def Obligations.IgnoredBitsAreNotExamined : Prop :=
  (∀ w w' : Word, w &&& ~~~ (decode w).ignoredMask = w' &&& ~~~ (decode w).ignoredMask → decode w' = decode w) ∧
  ∀ i : Instr, encode i &&& i.ignoredMask = if i.opcode = .not then 0x003F else 0x0000

/-- R62: the decoding procedure, with the fields of R52 written as quotients and remainders of the word's number. -/
def Obligations.DecodingProcedureReadsTheFields : Prop :=
  ∀ w : Word,
    let x := w.toNat
    let r9 : Reg := Fin.ofNat 8 (x / 512)
    let r6 : Reg := Fin.ofNat 8 (x / 64)
    let r0 : Reg := Fin.ofNat 8 x
    let immediate := decide (x / 32 % 2 = 1)
    (x / 4096 = 0 → decode w = .br (decide (x / 2048 % 2 = 1)) (decide (x / 1024 % 2 = 1)) (decide (x / 512 % 2 = 1)) (BitVec.ofNat 9 x)) ∧
    (x / 4096 = 1 → decode w = if immediate then .addImm r9 r6 (BitVec.ofNat 5 x) else .addReg r9 r6 r0) ∧
    (x / 4096 = 2 → decode w = .ld r9 (BitVec.ofNat 9 x)) ∧
    (x / 4096 = 3 → decode w = .st r9 (BitVec.ofNat 9 x)) ∧
    (x / 4096 = 4 → decode w = if x / 2048 % 2 = 1 then .jsr (BitVec.ofNat 11 x) else .jsrr r6) ∧
    (x / 4096 = 5 → decode w = if immediate then .andImm r9 r6 (BitVec.ofNat 5 x) else .andReg r9 r6 r0) ∧
    (x / 4096 = 6 → decode w = .ldr r9 r6 (BitVec.ofNat 6 x)) ∧
    (x / 4096 = 7 → decode w = .str r9 r6 (BitVec.ofNat 6 x)) ∧
    (x / 4096 = 8 → decode w = .rti) ∧
    (x / 4096 = 9 → decode w = .not r9 r6) ∧
    (x / 4096 = 10 → decode w = .ldi r9 (BitVec.ofNat 9 x)) ∧
    (x / 4096 = 11 → decode w = .sti r9 (BitVec.ofNat 9 x)) ∧
    (x / 4096 = 12 → decode w = .jmp r6) ∧
    (x / 4096 = 13 → decode w = .res) ∧
    (x / 4096 = 14 → decode w = .lea r9 (BitVec.ofNat 9 x)) ∧
    (x / 4096 = 15 →
      (x % 256 = 0x20 → decode w = .getc) ∧ (x % 256 = 0x21 → decode w = .out) ∧ (x % 256 = 0x22 → decode w = .puts) ∧
      (x % 256 = 0x23 → decode w = .inEcho) ∧ (x % 256 = 0x24 → decode w = .putsp) ∧ (x % 256 = 0x25 → decode w = .halt) ∧
      (x % 256 < 0x20 ∨ 0x25 < x % 256 → decode w = .trap (BitVec.ofNat 8 x)))

/-- R61: the four words of the document's examples. -/
def Obligations.WorkedEncodingsDecode : Prop :=
  decode 0x1025 = .addImm 0 0 5 ∧ decode 0x4802 = .jsr 2 ∧ decode 0xC1C0 = .jmp 7 ∧ decode 0xF022 = .puts ∧
  encode (.addImm 0 0 5) = 0x1025 ∧ encode (.jsr 2) = 0x4802 ∧ encode (.jmp 7) = 0xC1C0 ∧ encode .puts = 0xF022

/-! ## Operands and the condition code -/

/-- R7: sign extension of a field of 1 to 16 bits, by the two equations of the rule, the equivalent sum, and the law they satisfy. -/
def Obligations.SignExtensionKeepsTheSignedValue : Prop :=
  ∀ (n : Nat) (f : BitVec n), 1 ≤ n → n ≤ 16 →
    (f.toNat < 2 ^ (n - 1) → sext f = BitVec.ofNat 16 f.toNat) ∧
    (2 ^ (n - 1) ≤ f.toNat → sext f = BitVec.ofNat 16 f.toNat ||| BitVec.ofNat 16 (65536 - 2 ^ n) ∧
      (sext f).toNat = (f.toNat + 65536 - 2 ^ n) % 65536) ∧
    (sext f).toInt = f.toInt

/-- R97, R36: the effective addresses are the program counter, or the base register, moved by the signed offset modulo 65536. -/
def Obligations.EffectiveAddressesMoveBySignedOffset : Prop :=
  ∀ (s : State) (off9 : BitVec 9) (off11 : BitVec 11) (off6 : BitVec 6) (baseR : Reg),
    s.pcRelative off9 = wordPlus s.pc off9.toInt ∧ s.pcRelative off11 = wordPlus s.pc off11.toInt ∧
    s.basePlus baseR off6 = wordPlus s.regs[baseR] off6.toInt

/-- R16: `setcc(r)` sets Z for zero, N for a word with the top bit set (a negative one), P otherwise, from the register's current
value, and changes nothing else. -/
def Obligations.SetccFollowsTheRegister : Prop :=
  ∀ (s : State) (r : Reg), s.setcc r = { s with cond := signCond s.regs[r] } ∧
    ((s.setcc r).cond = .z ↔ s.regs[r].toNat = 0) ∧
    ((s.setcc r).cond = .n ↔ 0x8000 ≤ s.regs[r].toNat) ∧
    ((s.setcc r).cond = .p ↔ 1 ≤ s.regs[r].toNat ∧ s.regs[r].toNat ≤ 0x7FFF)

/-- R17 with the spec's resolution of C1 (D8, log 16): the condition code is changed by no instruction but the seven, and each of those
leaves it agreeing with the signed value of the destination. A load that waits for the keyboard has not run: it leaves `pc` behind,
and is the only case the premise on `pc` shuts out. -/
def Obligations.OnlySevenInstructionsWriteTheCondition : Prop :=
  ∀ (i : Instr) (s t : State), exec i s = .next t →
    (condReg i = none → t.cond = s.cond) ∧
    ∀ dr : Reg, condReg i = some dr → t.pc = s.pc → t.cond = signCond t.regs[dr]

/-- R17: BR is the only reader of the condition code: any other instruction does the same with another condition, but for the
condition code itself. -/
def Obligations.OnlyBranchReadsTheCondition : Prop :=
  ∀ (i : Instr) (s t : State) (c : Cond), i.opcode ≠ .br → exec i s = .next t →
    ∃ d, exec i { s with cond := c } = .next { t with cond := d }

/-! ## Arithmetic and logic -/

/-- R80, R81: both forms of ADD: the sum modulo 65536, the condition of it, nothing else. -/
def Obligations.AddWritesSumAndCondition : Prop :=
  ∀ (dr sr1 sr2 : Reg) (imm5 : BitVec 5) (s : State),
    exec (.addReg dr sr1 sr2) s =
      .next { s with regs := s.regs.set dr (BitVec.ofNat 16 (s.regs[sr1].toNat + s.regs[sr2].toNat))
                     cond := signCond (BitVec.ofNat 16 (s.regs[sr1].toNat + s.regs[sr2].toNat)) } ∧
    exec (.addImm dr sr1 imm5) s =
      .next { s with regs := s.regs.set dr (wordPlus s.regs[sr1] imm5.toInt)
                     cond := signCond (wordPlus s.regs[sr1] imm5.toInt) }

/-- R82, R83: both forms of AND: the bitwise conjunction, the immediate sign-extended first, the condition of it, nothing else. -/
def Obligations.AndWritesConjunctionAndCondition : Prop :=
  ∀ (dr sr1 sr2 : Reg) (imm5 : BitVec 5) (s : State),
    exec (.andReg dr sr1 sr2) s =
      .next { s with regs := s.regs.set dr (s.regs[sr1] &&& s.regs[sr2])
                     cond := signCond (s.regs[sr1] &&& s.regs[sr2]) } ∧
    exec (.andImm dr sr1 imm5) s =
      .next { s with regs := s.regs.set dr (s.regs[sr1] &&& imm5.signExtend 16)
                     cond := signCond (s.regs[sr1] &&& imm5.signExtend 16) }

/-- R84: NOT writes `0xFFFF - x[SR]` and its condition, nothing else. -/
def Obligations.NotWritesComplementAndCondition : Prop :=
  ∀ (dr sr : Reg) (s : State),
    exec (.not dr sr) s =
      .next { s with regs := s.regs.set dr (BitVec.ofNat 16 (0xFFFF - s.regs[sr].toNat))
                     cond := signCond (BitVec.ofNat 16 (0xFFFF - s.regs[sr].toNat)) }

/-! ## Memory accesses -/

/-- R32, R33, the whole KBSR word as the spec chose it (D12, log 18): a read elsewhere than KBSR gives the stored word and changes nothing; a read of KBSR takes one line, waits when there is
none, sets KBSR to 0x8000 and KBDR to the first character of a non-empty line, KBSR to 0x0000 for an empty one, returns KBSR,
and leaves every other word. -/
def Obligations.ReadPollsTheKeyboardAtKbsrOnly : Prop :=
  ∀ s : State, s.mem.wf →
    (∀ a, a ≠ 0xFE00 → s.memRead a = some (s.word a, s)) ∧
    (s.consoleIn = [] → s.memRead 0xFE00 = none) ∧
    (∀ rest, s.consoleIn = [] :: rest → ∃ t, s.memRead 0xFE00 = some (0x0000, t) ∧
      t = { s with mem := t.mem, consoleIn := rest } ∧ t.word 0xFE00 = 0x0000 ∧ ∀ a, a ≠ 0xFE00 → t.word a = s.word a) ∧
    (∀ c cs rest, s.consoleIn = (c :: cs) :: rest → ∃ t, s.memRead 0xFE00 = some (0x8000, t) ∧
      t = { s with mem := t.mem, consoleIn := rest } ∧ t.word 0xFE00 = 0x8000 ∧ t.word 0xFE02 = c ∧
      ∀ a, a ≠ 0xFE00 → a ≠ 0xFE02 → t.word a = s.word a)

/-- R34: a write stores the word at its address and does nothing else, at every address. -/
def Obligations.WriteIsPlainStorageEverywhere : Prop :=
  ∀ (s : State) (a v : Word), s.mem.wf →
    s.memWrite a v = { s with mem := (s.memWrite a v).mem } ∧ (s.memWrite a v).word a = v ∧
    ∀ b, b ≠ a → (s.memWrite a v).word b = s.word b

/-- R48: with an empty line delivered each time, two reads of KBSR one after the other both return 0x0000 and leave KBDR as it was. -/
def Obligations.RepeatedIdlePollsReportNotReady : Prop :=
  ∀ (s : State) (rest : List Line), s.mem.wf → s.consoleIn = [] :: [] :: rest →
    ∃ t u, s.memRead 0xFE00 = some (0x0000, t) ∧ t.memRead 0xFE00 = some (0x0000, u) ∧
      u.word 0xFE02 = s.word 0xFE02 ∧ u.consoleIn = rest

/-! ## Loads, stores, LEA -/

/-- R90, R94: LD and LDR load the word that MemRead gives at the effective address and set the condition from it. They complete whenever
the read does not wait. -/
def Obligations.LoadWritesWordReadAndCondition : Prop :=
  ∀ (dr baseR : Reg) (off9 : BitVec 9) (off6 : BitVec 6) (s : State),
    (s.CanRead (wordPlus s.pc off9.toInt) → ∃ v t, s.memRead (wordPlus s.pc off9.toInt) = some (v, t) ∧
      exec (.ld dr off9) s = .next { t with regs := s.regs.set dr v, cond := signCond v }) ∧
    (s.CanRead (wordPlus s.regs[baseR] off6.toInt) → ∃ v t, s.memRead (wordPlus s.regs[baseR] off6.toInt) = some (v, t) ∧
      exec (.ldr dr baseR off6) s = .next { t with regs := s.regs.set dr v, cond := signCond v })

/-- R92: LDI reads the pointer, then the datum in the state the first read leaves, and sets the condition from the datum. It
completes whenever neither read waits: a pointer word holds KBSR's address only where a line is there. -/
def Obligations.IndirectLoadReadsPointerThenDatum : Prop :=
  ∀ (dr : Reg) (off9 : BitVec 9) (s : State), s.mem.wf →
    s.CanRead (wordPlus s.pc off9.toInt) → s.CanRead (s.word (wordPlus s.pc off9.toInt)) →
    ∃ ptr t v u, s.memRead (wordPlus s.pc off9.toInt) = some (ptr, t) ∧ t.memRead ptr = some (v, u) ∧
      exec (.ldi dr off9) s = .next { u with regs := s.regs.set dr v, cond := signCond v }

/-- R91, R95: ST and STR store the source register at the effective address; every other word and everything else stays. -/
def Obligations.StoreWritesOneWord : Prop :=
  ∀ (sr baseR : Reg) (off9 : BitVec 9) (off6 : BitVec 6) (s : State), s.mem.wf →
    (∃ t, exec (.st sr off9) s = .next t ∧ t = { s with mem := t.mem } ∧ t.word (s.pcRelative off9) = s.regs[sr] ∧
      ∀ a, a ≠ s.pcRelative off9 → t.word a = s.word a) ∧
    (∃ t, exec (.str sr baseR off6) s = .next t ∧ t = { s with mem := t.mem } ∧ t.word (s.basePlus baseR off6) = s.regs[sr] ∧
      ∀ a, a ≠ s.basePlus baseR off6 → t.word a = s.word a)

/-- R93: STI reads the pointer through MemRead and stores the source register at the address it holds; that write never polls. -/
def Obligations.IndirectStoreWritesAtThePointer : Prop :=
  ∀ (sr : Reg) (off9 : BitVec 9) (s : State), s.mem.wf → s.CanRead (s.pcRelative off9) →
    ∃ ptr u t, s.memRead (s.pcRelative off9) = some (ptr, u) ∧ exec (.sti sr off9) s = .next t ∧
      t = { u with mem := t.mem } ∧ t.word ptr = s.regs[sr] ∧ ∀ a, a ≠ ptr → t.word a = u.word a

/-- R96: LEA writes the address and sets the condition from it, with no memory access. -/
def Obligations.LeaWritesAddressAndCondition : Prop :=
  ∀ (dr : Reg) (off9 : BitVec 9) (s : State),
    exec (.lea dr off9) s =
      .next { s with regs := s.regs.set dr (wordPlus s.pc off9.toInt), cond := signCond (wordPlus s.pc off9.toInt) }

/-! ## Control transfer -/

/-- R100: BR is taken when a set flag of the mask names the condition that holds; it changes only `pc`. -/
def Obligations.BranchFollowsTheMask : Prop :=
  ∀ (n z p : Bool) (off9 : BitVec 9) (s : State),
    exec (.br n z p off9) s =
      .next { s with pc := if (n = true ∧ s.cond = .n) ∨ (z = true ∧ s.cond = .z) ∨ (p = true ∧ s.cond = .p)
                           then wordPlus s.pc off9.toInt else s.pc }

/-- R101: JMP goes to the word in the base register and changes nothing else. -/
def Obligations.JumpGoesToTheRegister : Prop :=
  ∀ (baseR : Reg) (s : State), exec (.jmp baseR) s = .next { s with pc := s.regs[baseR] }

/-- R102: JSR puts the return address in R7 and adds the offset to the incremented program counter. -/
def Obligations.CallLinksAndMovesByOffset : Prop :=
  ∀ (off11 : BitVec 11) (s : State),
    exec (.jsr off11) s = .next { s with regs := s.regs.set 7 s.pc, pc := wordPlus s.pc off11.toInt }

/-- R103: JSRR writes R7 first, so through R7 it falls through to the next instruction; through any other register it goes to
that register's word. -/
def Obligations.RegisterCallReadsTheBaseAfterTheLink : Prop :=
  ∀ (baseR : Reg) (s : State),
    exec (.jsrr baseR) s = .next { s with regs := s.regs.set 7 s.pc, pc := if baseR = 7 then s.pc else s.regs[baseR] }

/-- R104, R105: RTI and RES change nothing beyond the increment the step has made. -/
def Obligations.ReservedOpcodesAreNoOps : Prop :=
  ∀ s : State, exec .rti s = .next s ∧ exec .res s = .next s

/-! ## Traps -/

/-- R119: every code outside 0x20 to 0x25 ends the run Faulted, with status 1, and everything else is kept. -/
def Obligations.UnknownTrapCodeFaultsTheRun : Prop :=
  ∀ (s : State) (vect8 : BitVec 8), vect8.toNat < 0x20 ∨ 0x25 < vect8.toNat →
    exec (.trap vect8) s = .next { s with run := .faulted } ∧ RunState.exitStatus .faulted = some 1

/-- R110: TRAP dispatches on its code alone: whatever the four ignored bits, a TRAP word does what the dispatch on its code says, and
with the code of a service it is that service's own row (words: D1, log 14; the row split: log 25). -/
def Obligations.TrapWordsDispatchOnTheCode : Prop :=
  ∀ (ignored : BitVec 4) (vect8 : BitVec 8) (s : State),
    exec (decode (0xF#4 ++ ignored ++ vect8)) s = exec (.trap vect8) s ∧
    decode (0xF#4 ++ ignored ++ 0x20#8) = .getc ∧ decode (0xF#4 ++ ignored ++ 0x21#8) = .out ∧
    decode (0xF#4 ++ ignored ++ 0x22#8) = .puts ∧ decode (0xF#4 ++ ignored ++ 0x23#8) = .inEcho ∧
    decode (0xF#4 ++ ignored ++ 0x24#8) = .putsp ∧ decode (0xF#4 ++ ignored ++ 0x25#8) = .halt

/-- R112, R115: GETC puts the first code of a non-empty line into R0; IN does so and echoes it with a newline. The line is taken whole. -/
def Obligations.CharacterReadTakesOneLine : Prop :=
  ∀ (s : State) (c : Word) (cs : Line) (rest : List Line), s.consoleIn = (c :: cs) :: rest →
    exec .getc s = .next { s with regs := s.regs.set 0 c, consoleIn := rest } ∧
    exec .inEcho s = .next { s with regs := s.regs.set 0 c, consoleIn := rest, consoleOut := s.consoleOut ++ [c, Config.newline] }

/-- R121: GETC and IN on an empty line have no meaning and are refused. -/
def Obligations.CharacterReadOfEmptyLineIsRefused : Prop :=
  ∀ (s : State) (rest : List Line), s.consoleIn = [] :: rest →
    exec .getc s = .refused .noFirstCharacter ∧ exec .inEcho s = .refused .noFirstCharacter

/-- R118: HALT writes the notice, whatever it is, and ends the run Halted, with status 0; everything else is kept. -/
def Obligations.HaltWritesTheNoticeAndEndsTheRun : Prop :=
  ∀ s : State,
    exec .halt s = .next { s with consoleOut := s.consoleOut ++ Config.haltNotice, run := .halted } ∧
    RunState.exitStatus .halted = some 0

/-- R113 with the spec's choice that the whole word is the code (D15, log 22): OUT writes R0 and a newline, and nothing else. -/
def Obligations.OutWritesTheWordAndNewline : Prop :=
  ∀ s : State, exec .out s = .next { s with consoleOut := s.consoleOut ++ [s.regs[(0 : Reg)], Config.newline] }

/-- R114: PUTS is the loop of the rule, with no bound on its length: where the loop ends, PUTS gives the state at its end. -/
def Obligations.PutsRunsTheStringLoop : Prop :=
  ∀ s t : State, StringScan (fun w => [w]) s.regs[(0 : Reg)] s t → exec .puts s = .next t

/-- R117: PUTSP is the loop of the rule: each non-zero word gives its low byte, and its high byte if that is not zero. -/
def Obligations.PutspRunsThePackedStringLoop : Prop :=
  (∀ w : Word, packedCodes w = BitVec.ofNat 16 (w.toNat % 256) ::
    (if w.toNat / 256 = 0 then [] else [BitVec.ofNat 16 (w.toNat / 256)])) ∧
  ∀ s t : State, StringScan packedCodes s.regs[(0 : Reg)] s t → exec .putsp s = .next t

/-- The model's choice for an instruction that has to wait (log 7, log 8): with no line left, GETC and IN, and a string loop that cannot
end, leave the state the instruction began in, with `pc` back at the instruction. -/
def Obligations.BlockedServicesGoBackToTheInstruction : Prop :=
  ∀ s : State,
    (s.consoleIn = [] → exec .getc s = .next { s with pc := s.pc - 1 } ∧ exec .inEcho s = .next { s with pc := s.pc - 1 }) ∧
    ((¬ ∃ t, StringScan (fun w => [w]) s.regs[(0 : Reg)] s t) → exec .puts s = .next { s with pc := s.pc - 1 }) ∧
    ((¬ ∃ t, StringScan packedCodes s.regs[(0 : Reg)] s t) → exec .putsp s = .next { s with pc := s.pc - 1 })

/-- R114, R117, R36: a string of `k` non-zero words and a zero word that does not touch KBSR is written in order, code by code, with nothing
else changed; it may wrap from 0xFFFF to 0x0000. -/
def Obligations.PlainStringsAreWrittenInOrder : Prop :=
  ∀ (s : State) (k : Nat),
    (∀ j, j < k → s.word (s.regs[(0 : Reg)] + BitVec.ofNat 16 j) ≠ 0x0000 ∧ s.regs[(0 : Reg)] + BitVec.ofNat 16 j ≠ 0xFE00) →
    s.word (s.regs[(0 : Reg)] + BitVec.ofNat 16 k) = 0x0000 → s.regs[(0 : Reg)] + BitVec.ofNat 16 k ≠ 0xFE00 →
    let words := (List.range k).map (fun j => s.word (s.regs[(0 : Reg)] + BitVec.ofNat 16 j))
    exec .puts s = .next { s with consoleOut := s.consoleOut ++ words } ∧
    exec .putsp s = .next { s with consoleOut := s.consoleOut ++ words.flatMap packedCodes }

/-- R120, U15 (log 20): the bounded string loop of the model never runs out of its bound: it gives no end exactly where the
unbounded loop of the rule reaches none, from every state and address and for either way of printing a word. -/
def Obligations.StringLoopIsNeverCutShort : Prop :=
  ∀ (codes : Word → List Word) (a : Word) (s : State),
    (State.scanString codes s.scanFuel a s = none ↔ ¬ ∃ t, StringScan codes a s t) ∧
    ∀ t, State.scanString codes s.scanFuel a s = some t ↔ StringScan codes a s t

/-! ## What instructions leave alone -/

/-- R11: an instruction changes no general register but the one the table gives it. -/
def Obligations.OnlyTheTableRegisterIsWritten : Prop :=
  ∀ (i : Instr) (s t : State), exec i s = .next t → ∀ r : Reg, t.regs[r] ≠ s.regs[r] → writtenReg i = some r

/-- R39, R33: a word of memory changes only where the instruction stores, or at KBSR and KBDR by a poll, which takes a line. -/
def Obligations.MemoryChangesOnlyByStoreOrPoll : Prop :=
  ∀ (i : Instr) (s t : State), s.mem.wf → exec i s = .next t → ∀ a, t.word a ≠ s.word a →
    storeAddress s i = some a ∨ ((a = 0xFE00 ∨ a = 0xFE02) ∧ t.consoleIn.length < s.consoleIn.length)

/-- R123: no trap instruction, with any code, writes the condition code, R7, or a register other than R0, and none stores to
memory: a word changes only at KBSR and KBDR, by a poll of PUTS or PUTSP. -/
def Obligations.TrapsKeepConditionLinkAndMemory : Prop :=
  ∀ (i : Instr) (s t : State), s.mem.wf → i.opcode = .trap → exec i s = .next t →
    t.cond = s.cond ∧ (∀ r : Reg, r ≠ 0 → t.regs[r] = s.regs[r]) ∧
    (∀ a, a ≠ 0xFE00 → a ≠ 0xFE02 → t.word a = s.word a) ∧
    (i = .getc ∨ i = .out ∨ i = .inEcho ∨ i = .halt ∨ (∃ v, i = .trap v ∧ isServiceCode v = false) → t.mem = s.mem)

/-- R24: a step takes lines from the front of the console input and only appends to the console output, and what has been written
before has no influence on it. -/
def Obligations.ConsoleOutputIsOnlyAppendedAndNeverRead : Prop :=
  ∀ s t : State, step s = .next t →
    (∃ k, t.consoleIn = s.consoleIn.drop k) ∧
    ∃ codes, t.consoleOut = s.consoleOut ++ codes ∧
      ∀ before, step { s with consoleOut := before } = .next { t with consoleOut := before ++ codes }

/-- R135: LDI polls the keyboard at most once: it takes at most one line. -/
def Obligations.IndirectLoadPollsAtMostOnce : Prop :=
  ∀ (dr : Reg) (off9 : BitVec 9) (s t : State), s.mem.wf → exec (.ldi dr off9) s = .next t →
    t.consoleIn = s.consoleIn ∨ t.consoleIn = s.consoleIn.drop 1

/-! ## The step -/

/-- R72, R73: while the run goes on and the guard holds, a step reads the word at `pc`, increments `pc` and executes the decoded
instruction; away from KBSR the fetch changes nothing else. -/
def Obligations.StepRunsTheDecodedInstruction : Prop :=
  ∀ s : State, s.Fetches →
    (∀ w t, s.memRead s.pc = some (w, t) → step s = exec (decode w) { t with pc := t.pc + 1 }) ∧
    (s.pc ≠ 0xFE00 → step s = exec (decode (s.word s.pc)) { s with pc := s.pc + 1 })

/-- R71, R33 (D12, log 18): a fetch from KBSR polls first, and the status word it leaves executes as a no-op: only the line, KBSR and KBDR, and the
program counter change. -/
def Obligations.FetchFromKbsrPollsAndDoesNothing : Prop :=
  ∀ (s : State) (line : Line) (rest : List Line), s.mem.wf → s.run = .running → s.pc = 0xFE00 → s.consoleIn = line :: rest →
    ∃ t, step s = .next t ∧ t = { s with mem := t.mem, pc := 0xFE01, consoleIn := rest } ∧
      t.word 0xFE00 = (if line = [] then 0x0000 else 0x8000) ∧
      t.word 0xFE02 = (line.head?).getD (s.word 0xFE02) ∧ ∀ a, a ≠ 0xFE00 → a ≠ 0xFE02 → t.word a = s.word a

/-- R74, the spec's reading of the guard (D10, log 11), and R76, R78: at the top address the run ends in LoopExit, with no fetch and all
else kept; after the end of a run there is no step, which the model says by a fault of its own (log 10). -/
def Obligations.NoStepAtTheTopOrAfterTheEnd : Prop :=
  (∀ s : State, s.run = .running → s.pc = 0xFFFF → step s = .next { s with run := .loopExit }) ∧
  ∀ s : State, s.run ≠ .running → step s = .fault (.runEnded s.run)

/-- R76, R77: a step ends the run in exactly three ways: HALT, an unknown trap code, the top address. -/
def Obligations.RunEndsInThreeWaysOnly : Prop :=
  ∀ s t : State, s.mem.wf → s.run = .running → step s = .next t → t.run ≠ .running →
    (t.run = .loopExit ∧ s.pc = 0xFFFF) ∨
    (s.pc ≠ 0xFFFF ∧ s.pc ≠ 0xFE00 ∧ decode (s.word s.pc) = .halt ∧ t.run = .halted ∧ t.pc = s.pc + 1) ∨
    (s.pc ≠ 0xFFFF ∧ s.pc ≠ 0xFE00 ∧ (∃ v, decode (s.word s.pc) = .trap v) ∧ t.run = .faulted ∧ t.pc = s.pc + 1)

/-- R130: a step of a running core never faults; it gives a next state, except that it is refused for GETC or IN (by their own
rows) when the next line is empty. A core that waits for a line and an endless string, which by R47, R120 and R166 complete no step,
are among the next states by the model's choice (log 7, log 20): there the next state is the state itself. -/
def Obligations.RunningStepFailsOnlyForEmptyLine : Prop :=
  ∀ s : State, s.mem.wf → s.run = .running →
    (∃ t, step s = .next t) ∨
    (step s = .refused .noFirstCharacter ∧ s.pc ≠ 0xFFFF ∧ (∃ rest, s.consoleIn = [] :: rest) ∧
      (decode (s.word s.pc) = .getc ∨ decode (s.word s.pc) = .inEcho))

/-- R47, the wait being a step that changes nothing by the model's choice (log 7): with no line left, a step that needs one leaves the whole state as it is: the fetch from KBSR, GETC and IN, and every read
of KBSR by LD, LDR, LDI or STI, and a string of PUTS or PUTSP that reaches KBSR. -/
def Obligations.StepWaitsWithAllStateUnchanged : Prop :=
  ∀ s : State, s.Fetches → s.consoleIn = [] →
    (s.pc = 0xFE00 → step s = .next s) ∧
    (s.pc ≠ 0xFE00 →
      (decode (s.word s.pc) = .getc ∨ decode (s.word s.pc) = .inEcho → step s = .next s) ∧
      (∀ dr off9, decode (s.word s.pc) = .ld dr off9 → wordPlus (s.pc + 1) off9.toInt = 0xFE00 → step s = .next s) ∧
      (∀ dr b off6, decode (s.word s.pc) = .ldr dr b off6 → wordPlus s.regs[b] off6.toInt = 0xFE00 → step s = .next s) ∧
      (∀ dr off9, decode (s.word s.pc) = .ldi dr off9 →
        wordPlus (s.pc + 1) off9.toInt = 0xFE00 ∨ s.word (wordPlus (s.pc + 1) off9.toInt) = 0xFE00 → step s = .next s) ∧
      (∀ sr off9, decode (s.word s.pc) = .sti sr off9 → wordPlus (s.pc + 1) off9.toInt = 0xFE00 → step s = .next s) ∧
      (∀ k, decode (s.word s.pc) = .puts ∨ decode (s.word s.pc) = .putsp →
        (∀ j, j < k → s.word (s.regs[(0 : Reg)] + BitVec.ofNat 16 j) ≠ 0x0000 ∧ s.regs[(0 : Reg)] + BitVec.ofNat 16 j ≠ 0xFE00) →
        s.regs[(0 : Reg)] + BitVec.ofNat 16 k = 0xFE00 → step s = .next s))

/-- R46: a store to the word after the instruction is what the next step decodes. -/
def Obligations.NextFetchSeesTheStore : Prop :=
  ∀ (s : State) (sr : Reg), s.mem.wf → s.Fetches → s.pc ≠ 0xFE00 → s.pc + 1 ≠ 0xFE00 → s.pc + 1 ≠ 0xFFFF →
    decode (s.word s.pc) = .st sr 0 →
    ∃ t, step s = .next t ∧ t.pc = s.pc + 1 ∧ step t = exec (decode s.regs[sr]) { t with pc := s.pc + 2 }

/-! ## Reset -/

/-- R150, R151: loading a well-formed image gives the core of the rule: big-endian words, the origin as `pc`, the words at
consecutive addresses, the open parameters elsewhere. -/
def Obligations.BootPlacesTheImage : Prop :=
  ∀ (p : OpenReset) (lines : List Line) (origin : Word) (words : List Word),
    p.mem.wf → origin.toNat + words.length ≤ 65536 →
    ∃ s, boot p lines (.bytes (imageBytes (origin :: words))) = .ok s ∧
      s.pc = origin ∧ s.regs = p.gpr ∧ s.cond = p.cond ∧ s.run = .running ∧ s.consoleOut = [] ∧ s.consoleIn = lines ∧
      (∀ k (h : k < words.length), s.word (origin + BitVec.ofNat 16 k) = words[k]) ∧
      (∀ a : Word, a.toNat < origin.toNat ∨ origin.toNat + words.length ≤ a.toNat → s.word a = p.mem.read a.toNat) ∧
      s.Inv

/-- R154: no core is created when the source fails, when the image ends before the origin word, or when it ends mid-word. -/
def Obligations.MalformedImagesMakeNoCore : Prop :=
  ∀ (p : OpenReset) (lines : List Line),
    boot p lines .failed = .error .sourceFailed ∧
    (∀ b : List Byte, b.length < 2 → boot p lines (.bytes b) = .error .truncated) ∧
    ∀ b : List Byte, 2 ≤ b.length → b.length % 2 = 1 → boot p lines (.bytes b) = .error .oddLength

/-- The spec's choice D17 (log 24): an image that would pass the top of memory is refused at load. -/
def Obligations.ImagePastTheTopIsRefused : Prop :=
  ∀ (p : OpenReset) (lines : List Line) (origin : Word) (words : List Word), 65536 < origin.toNat + words.length →
    boot p lines (.bytes (imageBytes (origin :: words))) = .error .pastTop

/-- The model's choice (log 2 to 6): the host's reset state is the core that the image 30 00 gives with the defaults of R3. -/
def Obligations.HostResetIsTheEmptyImage : Prop :=
  boot OpenReset.default [] (.bytes [0x30, 0x00]) = .ok State.reset ∧ State.reset.run = .running ∧ State.reset.consoleOut = []

/-- R79 (the word 0x1025 by D1, D2, log 14): the round trip of the document: the image 30 00 10 25, with R0 zero, makes R0 five and the condition Positive in one step. -/
def Obligations.RoundTripExampleGivesFive : Prop :=
  ∀ (p : OpenReset) (lines : List Line), p.mem.wf → p.gpr[(0 : Reg)] = 0 →
    ∃ s t, boot p lines (.bytes [0x30, 0x00, 0x10, 0x25]) = .ok s ∧ step s = .next t ∧
      t.regs[(0 : Reg)] = 5 ∧ t.cond = .p ∧ t.pc = 0x3001

/-! ## Invariants and comparisons of runs -/

/-- The reset state meets the invariant. -/
def Obligations.ResetMeetsTheInvariant : Prop := State.reset.Inv

/-- Every step keeps the invariant: memory stays canonical, and LoopExit stands at the top address. -/
def Obligations.StepKeepsTheInvariant : Prop :=
  ∀ s t : State, s.Inv → step s = .next t → t.Inv

/-- R24: characters of a line after the first have no influence on anything a step does but the lines still to come. -/
def Obligations.OnlyFirstCharactersOfLinesMatter : Prop :=
  ∀ s : State, step s.firstCharacters = mapNext State.firstCharacters (step s)

/-- R9, R47 (log 7): a step that changes the state does the same when more lines are to come after those there are, and leaves them. -/
def Obligations.LaterLinesDoNotMatter : Prop :=
  ∀ (s t : State) (later : List Line), s.mem.wf → step s = .next t → t ≠ s →
    step { s with consoleIn := s.consoleIn ++ later } = .next { t with consoleIn := t.consoleIn ++ later }

/-- The model's own operation for the host (log 26): an instruction word placed for the host is what the very next step runs, from every state. -/
def Obligations.PlacedWordIsRunNext : Prop :=
  ∀ (s : State) (w : Word), s.mem.wf → ∃ t, t.word t.pc = w ∧ t.regs = s.regs ∧ s.withFetchWord 16 w.toNat = t ∧
    step t = exec (decode w) { t with pc := t.pc + 1 } ∧ decodeTableWord 16 w.toNat = some (decode w)
end

