-- ==== Sys2Proof/Laws/Decode.lean ====
section
/-! SUPPORT. How fields and single bits are read from words put together by `++`, the small lemmas of the decoder and the encoder. -/

namespace Sys2Proof

/-- A field that lies in the low part. -/
theorem extract_append_low {m n lo w : Nat} (x : BitVec m) (y : BitVec n) (h : lo + w ≤ n) :
    (x ++ y).extractLsb' lo w = y.extractLsb' lo w := by
  apply BitVec.eq_of_getLsbD_eq
  intro i hi
  simp [BitVec.getLsbD_append, hi, show lo + i < n by omega]

/-- A field that lies in the high part. -/
theorem extract_append_high {m n lo w : Nat} (x : BitVec m) (y : BitVec n) (h : n ≤ lo) :
    (x ++ y).extractLsb' lo w = x.extractLsb' (lo - n) w := by
  apply BitVec.eq_of_getLsbD_eq
  intro i hi
  simp [BitVec.getLsbD_append, hi, show ¬ lo + i < n by omega, show lo + i - n = lo - n + i by omega]

/-- A field that is the whole vector. -/
theorem extract_whole {n : Nat} (x : BitVec n) : x.extractLsb' 0 n = x := by
  apply BitVec.eq_of_getLsbD_eq
  intro i hi
  simp [hi]

/-- A register number read from its 3-bit field. -/
theorem regBits_toFin (r : Reg) : (regBits r).toFin = r := rfl

/-- A field read as a register is the register whose bits stand there. -/
theorem regField_of_field {w : Word} {lo : Nat} {r : Reg} (h : w.extractLsb' lo 3 = regBits r) : regField w lo = r := by
  unfold regField field; rw [h]; rfl

/-- A single bit of a word is a bit of any field that holds it. -/
theorem getLsbD_of_field {w : Word} {lo k : Nat} {f : BitVec k} (h : w.extractLsb' lo k = f) (i : Nat) (hi : i < k) :
    w.getLsbD (lo + i) = f.getLsbD i := by
  rw [← h]; simp [hi]

/-- The four opcode bits of a word whose top nibble is known (R50). -/
theorem opcode_bits {w : Word} {f : BitVec 4} (h : w.extractLsb' 12 4 = f) :
    opcodeOfBits (w.getLsbD 15) (w.getLsbD 14) (w.getLsbD 13) (w.getLsbD 12) =
      opcodeOfBits (f.getLsbD 3) (f.getLsbD 2) (f.getLsbD 1) (f.getLsbD 0) := by
  rw [← getLsbD_of_field h 3 (by decide), ← getLsbD_of_field h 2 (by decide), ← getLsbD_of_field h 1 (by decide),
    ← getLsbD_of_field h 0 (by decide)]

/-- Every TRAP code decodes to a well-formed instruction (R110). -/
theorem decodeTrap_wf (v : BitVec 8) : (decodeTrap v).wf = true := by
  unfold decodeTrap
  split_ifs <;> try rfl
  simp only [Instr.wf, isServiceCode, Bool.not_eq_true', Bool.and_eq_false_iff, decide_eq_false_iff_not]
  rename_i h0 h1 h2 h3 h4 h5
  by_contra hc
  have hb : ∀ k : Nat, k < 256 → v.toNat = k → v = BitVec.ofNat 8 k := fun k hk e => by
    apply BitVec.eq_of_toNat_eq; simp [e, Nat.mod_eq_of_lt hk]
  have : v.toNat = 0x20 ∨ v.toNat = 0x21 ∨ v.toNat = 0x22 ∨ v.toNat = 0x23 ∨ v.toNat = 0x24 ∨ v.toNat = 0x25 := by omega
  rcases this with e | e | e | e | e | e
  · exact h0 (hb _ (by omega) e)
  · exact h1 (hb _ (by omega) e)
  · exact h2 (hb _ (by omega) e)
  · exact h3 (hb _ (by omega) e)
  · exact h4 (hb _ (by omega) e)
  · exact h5 (hb _ (by omega) e)

/-- A code that is no service's stays with the TRAP row. -/
theorem decodeTrap_unknown (v : BitVec 8) (h : isServiceCode v = false) : decodeTrap v = .trap v := by
  unfold decodeTrap
  split_ifs with h0 h1 h2 h3 h4 h5 <;> first | rfl | (subst_vars; exact absurd h (by decide))

end Sys2Proof
end

