-- ==== Sys2Proof/Laws/State.lean ====
section
/-! SUPPORT. What each state operation leaves in each field, by unfolding it once, so that no later proof unfolds a record update. -/

namespace Sys2Proof.Machine

@[simp] theorem State.setReg_regs (s : State) (r : Reg) (v : Word) : (s.setReg r v).regs = s.regs.set r v := rfl
@[simp] theorem State.setReg_pc (s : State) (r : Reg) (v : Word) : (s.setReg r v).pc = s.pc := rfl
@[simp] theorem State.setReg_cond (s : State) (r : Reg) (v : Word) : (s.setReg r v).cond = s.cond := rfl
@[simp] theorem State.setReg_mem (s : State) (r : Reg) (v : Word) : (s.setReg r v).mem = s.mem := rfl
@[simp] theorem State.setReg_run (s : State) (r : Reg) (v : Word) : (s.setReg r v).run = s.run := rfl
@[simp] theorem State.setReg_consoleIn (s : State) (r : Reg) (v : Word) : (s.setReg r v).consoleIn = s.consoleIn := rfl
@[simp] theorem State.setReg_consoleOut (s : State) (r : Reg) (v : Word) : (s.setReg r v).consoleOut = s.consoleOut := rfl

@[simp] theorem State.setPc_regs (s : State) (a : Word) : (s.setPc a).regs = s.regs := rfl
@[simp] theorem State.setPc_pc (s : State) (a : Word) : (s.setPc a).pc = a := rfl
@[simp] theorem State.setPc_cond (s : State) (a : Word) : (s.setPc a).cond = s.cond := rfl
@[simp] theorem State.setPc_mem (s : State) (a : Word) : (s.setPc a).mem = s.mem := rfl
@[simp] theorem State.setPc_run (s : State) (a : Word) : (s.setPc a).run = s.run := rfl
@[simp] theorem State.setPc_consoleIn (s : State) (a : Word) : (s.setPc a).consoleIn = s.consoleIn := rfl
@[simp] theorem State.setPc_consoleOut (s : State) (a : Word) : (s.setPc a).consoleOut = s.consoleOut := rfl

@[simp] theorem State.consoleWrite_regs (s : State) (l : List Word) : (s.consoleWrite l).regs = s.regs := rfl
@[simp] theorem State.consoleWrite_pc (s : State) (l : List Word) : (s.consoleWrite l).pc = s.pc := rfl
@[simp] theorem State.consoleWrite_cond (s : State) (l : List Word) : (s.consoleWrite l).cond = s.cond := rfl
@[simp] theorem State.consoleWrite_mem (s : State) (l : List Word) : (s.consoleWrite l).mem = s.mem := rfl
@[simp] theorem State.consoleWrite_run (s : State) (l : List Word) : (s.consoleWrite l).run = s.run := rfl
@[simp] theorem State.consoleWrite_consoleIn (s : State) (l : List Word) : (s.consoleWrite l).consoleIn = s.consoleIn := rfl
@[simp] theorem State.consoleWrite_consoleOut (s : State) (l : List Word) : (s.consoleWrite l).consoleOut = s.consoleOut ++ l := rfl

@[simp] theorem State.setWord_regs (s : State) (a v : Word) : (s.setWord a v).regs = s.regs := rfl
@[simp] theorem State.setWord_pc (s : State) (a v : Word) : (s.setWord a v).pc = s.pc := rfl
@[simp] theorem State.setWord_cond (s : State) (a v : Word) : (s.setWord a v).cond = s.cond := rfl
@[simp] theorem State.setWord_mem (s : State) (a v : Word) : (s.setWord a v).mem = s.mem.write a.toNat v := rfl
@[simp] theorem State.setWord_run (s : State) (a v : Word) : (s.setWord a v).run = s.run := rfl
@[simp] theorem State.setWord_consoleIn (s : State) (a v : Word) : (s.setWord a v).consoleIn = s.consoleIn := rfl
@[simp] theorem State.setWord_consoleOut (s : State) (a v : Word) : (s.setWord a v).consoleOut = s.consoleOut := rfl

@[simp] theorem State.memWrite_regs (s : State) (a v : Word) : (s.memWrite a v).regs = s.regs := rfl
@[simp] theorem State.memWrite_pc (s : State) (a v : Word) : (s.memWrite a v).pc = s.pc := rfl
@[simp] theorem State.memWrite_cond (s : State) (a v : Word) : (s.memWrite a v).cond = s.cond := rfl
@[simp] theorem State.memWrite_mem (s : State) (a v : Word) : (s.memWrite a v).mem = s.mem.write a.toNat v := rfl
@[simp] theorem State.memWrite_run (s : State) (a v : Word) : (s.memWrite a v).run = s.run := rfl
@[simp] theorem State.memWrite_consoleIn (s : State) (a v : Word) : (s.memWrite a v).consoleIn = s.consoleIn := rfl
@[simp] theorem State.memWrite_consoleOut (s : State) (a v : Word) : (s.memWrite a v).consoleOut = s.consoleOut := rfl

@[simp] theorem State.stop_regs (s : State) (o : RunState) : (s.stop o).regs = s.regs := rfl
@[simp] theorem State.stop_pc (s : State) (o : RunState) : (s.stop o).pc = s.pc := rfl
@[simp] theorem State.stop_cond (s : State) (o : RunState) : (s.stop o).cond = s.cond := rfl
@[simp] theorem State.stop_mem (s : State) (o : RunState) : (s.stop o).mem = s.mem := rfl
@[simp] theorem State.stop_run (s : State) (o : RunState) : (s.stop o).run = o := rfl
@[simp] theorem State.stop_consoleIn (s : State) (o : RunState) : (s.stop o).consoleIn = s.consoleIn := rfl
@[simp] theorem State.stop_consoleOut (s : State) (o : RunState) : (s.stop o).consoleOut = s.consoleOut := rfl

@[simp] theorem State.setcc_regs (s : State) (r : Reg) : (s.setcc r).regs = s.regs := rfl
@[simp] theorem State.setcc_pc (s : State) (r : Reg) : (s.setcc r).pc = s.pc := rfl
@[simp] theorem State.setcc_cond (s : State) (r : Reg) : (s.setcc r).cond = condOf s.regs[r] := rfl
@[simp] theorem State.setcc_mem (s : State) (r : Reg) : (s.setcc r).mem = s.mem := rfl
@[simp] theorem State.setcc_run (s : State) (r : Reg) : (s.setcc r).run = s.run := rfl
@[simp] theorem State.setcc_consoleIn (s : State) (r : Reg) : (s.setcc r).consoleIn = s.consoleIn := rfl
@[simp] theorem State.setcc_consoleOut (s : State) (r : Reg) : (s.setcc r).consoleOut = s.consoleOut := rfl

@[simp] theorem State.setRegCC_regs (s : State) (r : Reg) (v : Word) : (s.setRegCC r v).regs = s.regs.set r v := rfl
@[simp] theorem State.setRegCC_pc (s : State) (r : Reg) (v : Word) : (s.setRegCC r v).pc = s.pc := rfl
@[simp] theorem State.setRegCC_mem (s : State) (r : Reg) (v : Word) : (s.setRegCC r v).mem = s.mem := rfl
@[simp] theorem State.setRegCC_run (s : State) (r : Reg) (v : Word) : (s.setRegCC r v).run = s.run := rfl
@[simp] theorem State.setRegCC_consoleIn (s : State) (r : Reg) (v : Word) : (s.setRegCC r v).consoleIn = s.consoleIn := rfl
@[simp] theorem State.setRegCC_consoleOut (s : State) (r : Reg) (v : Word) : (s.setRegCC r v).consoleOut = s.consoleOut := rfl

@[simp] theorem State.reg_eq (s : State) (r : Reg) : s.reg r = s.regs[r] := rfl

/-- The condition code after a destination write is that of the word written (R16, R17). -/
@[simp] theorem State.setRegCC_cond (s : State) (r : Reg) (v : Word) : (s.setRegCC r v).cond = condOf v := by
  simp [State.setRegCC, State.setcc, State.setReg, State.reg]

/-- A destination write with its condition code as one record update. -/
theorem State.setRegCC_eq (s : State) (r : Reg) (v : Word) :
    s.setRegCC r v = { s with regs := s.regs.set r v, cond := condOf v } := by
  simp [State.setRegCC, State.setcc, State.setReg, State.reg]

/-- Reading a register after a write (R10). -/
theorem regs_set_get (x : Vector Word 8) (r q : Reg) (v : Word) : (x.set r v)[q] = if r = q then v else x[q] := by
  simp [Vector.getElem_set, Fin.ext_iff]

@[simp] theorem State.word_setReg (s : State) (r : Reg) (v a : Word) : (s.setReg r v).word a = s.word a := rfl
@[simp] theorem State.word_setPc (s : State) (p a : Word) : (s.setPc p).word a = s.word a := rfl
@[simp] theorem State.word_consoleWrite (s : State) (l : List Word) (a : Word) : (s.consoleWrite l).word a = s.word a := rfl
@[simp] theorem State.word_stop (s : State) (o : RunState) (a : Word) : (s.stop o).word a = s.word a := rfl
@[simp] theorem State.word_setRegCC (s : State) (r : Reg) (v a : Word) : (s.setRegCC r v).word a = s.word a := rfl

end Sys2Proof.Machine
end

