-- ==== Sys2Proof/Laws/Memory.lean ====
section
/-! SUPPORT. The laws of memory as a list: a read after a write, and that every memory operation keeps the canonical form. -/

namespace Sys2Proof.Machine

theorem Memory.read_cons_self (a : Nat) (v : Word) (m : Memory) (h : m.read a = Config.unlistedWord) :
    (Memory.cons a v m).read a = v := by
  unfold Memory.cons
  split
  · rw [h]; exact (by assumption : v = _).symm
  · simp [Memory.read]

theorem Memory.read_cons_other (a b : Nat) (v : Word) (m : Memory) (h : b ≠ a) : (Memory.cons a v m).read b = m.read b := by
  unfold Memory.cons
  split
  · rfl
  · simp [Memory.read, Ne.symm h]

/-- An address below every listed one is unlisted. -/
theorem Memory.read_below (m : Memory) (a : Nat) (h : ∀ c ∈ m, a < c.1) : m.read a = Config.unlistedWord := by
  induction m with
  | nil => rfl
  | cons c m ih =>
    have hc := h c (by simp)
    simp [Memory.read, Nat.ne_of_gt hc, ih (fun d hd => h d (by simp [hd]))]

/-- A write leaves every other address alone. -/
theorem Memory.read_write_other (m : Memory) (a b : Nat) (v : Word) (h : b ≠ a) : (m.write a v).read b = m.read b := by
  induction m with
  | nil => simp [Memory.write, Memory.read_cons_other _ _ _ _ h]
  | cons c m ih =>
    obtain ⟨k, w⟩ := c
    unfold Memory.write
    split_ifs with h1 h2
    · exact Memory.read_cons_other _ _ _ _ h
    · subst h2; simp [Memory.read_cons_other _ _ _ _ h, Memory.read, Ne.symm h]
    · simp [Memory.read, ih]

/-- A read after a write to the same address gives the word written. -/
theorem Memory.read_write_same (m : Memory) (a : Nat) (v : Word) (h : m.Pairwise (fun c d => c.1 < d.1)) :
    (m.write a v).read a = v := by
  induction m with
  | nil => exact Memory.read_cons_self _ _ _ rfl
  | cons c m ih =>
    obtain ⟨k, w⟩ := c
    rw [List.pairwise_cons] at h
    unfold Memory.write
    split_ifs with h1 h2
    · refine Memory.read_cons_self _ _ _ (Memory.read_below _ _ ?_)
      intro d hd
      rcases List.mem_cons.1 hd with rfl | hd
      · exact h1
      · exact Nat.lt_trans h1 (h.1 d hd)
    · subst h2; exact Memory.read_cons_self _ _ _ (Memory.read_below _ _ h.1)
    · simp [Memory.read, Ne.symm h2, ih h.2]

/-- Every cell of a written memory is an old one or the one written. -/
theorem Memory.mem_write (m : Memory) (a : Nat) (v : Word) (c : Cell) (h : c ∈ m.write a v) :
    c ∈ m ∨ (c = (a, v) ∧ v ≠ Config.unlistedWord) := by
  induction m with
  | nil => unfold Memory.write Memory.cons at h; split_ifs at h with h1 <;> simp_all
  | cons d m ih =>
    obtain ⟨k, w⟩ := d
    unfold Memory.write Memory.cons at h
    split_ifs at h <;> simp_all <;> tauto

/-- A write keeps the canonical form. -/
theorem Memory.write_wf (m : Memory) (a : Nat) (v : Word) (ha : a < Config.memWords) (h : m.wf) : (m.write a v).wf := by
  refine ⟨?_, fun c hc => ?_⟩
  · have hs := h.1
    clear h
    induction m with
    | nil => unfold Memory.write Memory.cons; split <;> simp
    | cons d m ih =>
      obtain ⟨k, w⟩ := d
      rw [List.pairwise_cons] at hs
      unfold Memory.write
      split_ifs with h1 h2
      · unfold Memory.cons
        split
        · exact List.pairwise_cons.2 hs
        · refine List.pairwise_cons.2 ⟨?_, List.pairwise_cons.2 hs⟩
          intro e he
          rcases List.mem_cons.1 he with rfl | he
          · exact h1
          · exact Nat.lt_trans h1 (hs.1 e he)
      · subst h2
        unfold Memory.cons
        split
        · exact hs.2
        · exact List.pairwise_cons.2 hs
      · refine List.pairwise_cons.2 ⟨fun e he => ?_, ih hs.2⟩
        rcases Memory.mem_write _ _ _ _ he with he | ⟨rfl, -⟩
        · exact hs.1 e he
        · exact Nat.lt_of_le_of_ne (Nat.le_of_not_lt h1) (Ne.symm h2)
  · rcases Memory.mem_write _ _ _ _ hc with hc | ⟨rfl, hv⟩
    · exact h.2 c hc
    · exact ⟨ha, hv⟩

/-- The empty memory is canonical. -/
theorem Memory.nil_wf : Memory.wf [] := ⟨List.Pairwise.nil, fun _ h => nomatch h⟩

/-- A word address is inside memory. -/
theorem toNat_lt_memWords (a : Word) : a.toNat < Config.memWords := a.isLt

theorem State.setWord_wf (s : State) (a v : Word) (h : s.mem.wf) : (s.setWord a v).mem.wf :=
  Memory.write_wf _ _ _ (toNat_lt_memWords a) h

theorem State.word_setWord_same (s : State) (a v : Word) (h : s.mem.wf) : (s.setWord a v).word a = v :=
  Memory.read_write_same _ _ _ h.1

theorem State.word_setWord_other (s : State) (a b v : Word) (h : b ≠ a) : (s.setWord a v).word b = s.word b :=
  Memory.read_write_other _ _ _ _ (fun e => h (BitVec.eq_of_toNat_eq e))

end Sys2Proof.Machine
end

