-- ==== Sys2Proof/Laws/Ops.lean ====
section
/-! SUPPORT. Everything the reads, the poll, the fetch and the string loop can do, said once. -/

namespace Sys2Proof.Machine

theorem State.memRead_plain (s : State) (a : Word) (h : a ≠ Config.kbsr) : s.memRead a = some (s.word a, s) := by
  simp [State.memRead, h]

theorem State.memRead_kbsr_nil (s : State) (h : s.consoleIn = []) : s.memRead Config.kbsr = none := by
  simp [State.memRead, State.keyboardPoll, State.consoleReadLine, h]

/-- The state after a poll of an empty line. -/
def State.polledIdle (s : State) (rest : List Line) : State :=
  { s with mem := s.mem.write Config.kbsr.toNat Config.kbsrIdle, consoleIn := rest }

/-- The state after a poll that captured the character `c`. -/
def State.polledReady (s : State) (c : Word) (rest : List Line) : State :=
  { s with mem := (s.mem.write Config.kbsr.toNat Config.kbsrReady).write Config.kbdr.toNat c, consoleIn := rest }

theorem State.memRead_kbsr_idle (s : State) (rest : List Line) (h : s.consoleIn = [] :: rest) :
    s.memRead Config.kbsr = some ((s.polledIdle rest).word Config.kbsr, s.polledIdle rest) := by
  simp [State.memRead, State.keyboardPoll, State.consoleReadLine, h]
  exact ⟨rfl, rfl⟩

theorem State.memRead_kbsr_ready (s : State) (c : Word) (cs : Line) (rest : List Line) (h : s.consoleIn = (c :: cs) :: rest) :
    s.memRead Config.kbsr = some ((s.polledReady c rest).word Config.kbsr, s.polledReady c rest) := by
  simp [State.memRead, State.keyboardPoll, State.consoleReadLine, h]
  exact ⟨rfl, rfl⟩

theorem State.polledIdle_kbsr (s : State) (rest : List Line) (h : s.mem.wf) : (s.polledIdle rest).word Config.kbsr = 0x0000 :=
  Memory.read_write_same _ _ _ h.1

theorem State.polledReady_kbsr (s : State) (c : Word) (rest : List Line) (h : s.mem.wf) :
    (s.polledReady c rest).word Config.kbsr = 0x8000 :=
  (Memory.read_write_other _ _ _ _ (by decide)).trans (Memory.read_write_same _ _ _ h.1)

theorem State.polledReady_kbdr (s : State) (c : Word) (rest : List Line) (h : s.mem.wf) :
    (s.polledReady c rest).word Config.kbdr = c :=
  Memory.read_write_same _ _ _ (Memory.write_wf _ _ _ (toNat_lt_memWords _) h).1

theorem State.polledIdle_word (s : State) (rest : List Line) (a : Word) (h : a ≠ Config.kbsr) :
    (s.polledIdle rest).word a = s.word a :=
  State.word_setWord_other s Config.kbsr a _ h

theorem State.polledReady_word (s : State) (c : Word) (rest : List Line) (a : Word) (h : a ≠ Config.kbsr) (h' : a ≠ Config.kbdr) :
    (s.polledReady c rest).word a = s.word a :=
  (State.word_setWord_other (s.setWord Config.kbsr Config.kbsrReady) Config.kbdr a _ h').trans
    (State.word_setWord_other s Config.kbsr a _ h)

/-- Everything a completed read can be: a plain one that changes nothing, or a poll at KBSR that took an empty or a non-empty line. -/
theorem State.memRead_cases {s t : State} {a v : Word} (h : s.memRead a = some (v, t)) :
    (a ≠ Config.kbsr ∧ v = s.word a ∧ t = s) ∨
    (a = Config.kbsr ∧ ∃ rest, s.consoleIn = [] :: rest ∧ t = s.polledIdle rest ∧ v = t.word a) ∨
    (a = Config.kbsr ∧ ∃ c cs rest, s.consoleIn = (c :: cs) :: rest ∧ t = s.polledReady c rest ∧ v = t.word a) := by
  by_cases ha : a = Config.kbsr
  · subst ha
    match hc : s.consoleIn with
    | [] => rw [s.memRead_kbsr_nil hc] at h; cases h
    | [] :: rest =>
      rw [s.memRead_kbsr_idle rest hc] at h
      cases h; exact .inr (.inl ⟨rfl, rest, rfl, rfl, rfl⟩)
    | (c :: cs) :: rest =>
      rw [s.memRead_kbsr_ready c cs rest hc] at h
      cases h; exact .inr (.inr ⟨rfl, c, cs, rest, rfl, rfl, rfl⟩)
  · rw [s.memRead_plain a ha] at h
    cases h; exact .inl ⟨ha, rfl, rfl⟩

/-- A read waits exactly at KBSR with no line there. -/
theorem State.memRead_none {s : State} {a : Word} : s.memRead a = none ↔ a = Config.kbsr ∧ s.consoleIn = [] := by
  constructor
  · intro h
    by_cases ha : a = Config.kbsr
    · subst ha
      refine ⟨rfl, ?_⟩
      match hc : s.consoleIn with
      | [] => rfl
      | [] :: rest => rw [s.memRead_kbsr_idle rest hc] at h; cases h
      | (c :: cs) :: rest => rw [s.memRead_kbsr_ready c cs rest hc] at h; cases h
    · rw [s.memRead_plain a ha] at h; cases h
  · rintro ⟨rfl, h⟩; exact s.memRead_kbsr_nil h

/-- What every completed read leaves: all but memory and the console input, which loses at most its first line. -/
theorem State.memRead_keeps {s t : State} {a v : Word} (h : s.memRead a = some (v, t)) :
    t.regs = s.regs ∧ t.pc = s.pc ∧ t.cond = s.cond ∧ t.run = s.run ∧ t.consoleOut = s.consoleOut ∧
    ((a ≠ Config.kbsr ∧ t = s) ∨ (a = Config.kbsr ∧ ∃ line, s.consoleIn = line :: t.consoleIn)) := by
  rcases State.memRead_cases h with ⟨ha, -, rfl⟩ | ⟨ha, rest, hc, rfl, -⟩ | ⟨ha, c, cs, rest, hc, rfl, -⟩
  · exact ⟨rfl, rfl, rfl, rfl, rfl, .inl ⟨ha, rfl⟩⟩
  · exact ⟨rfl, rfl, rfl, rfl, rfl, .inr ⟨ha, _, hc⟩⟩
  · exact ⟨rfl, rfl, rfl, rfl, rfl, .inr ⟨ha, _, hc⟩⟩

theorem State.memRead_wf {s t : State} {a v : Word} (h : s.memRead a = some (v, t)) (hw : s.mem.wf) : t.mem.wf := by
  rcases State.memRead_cases h with ⟨-, -, rfl⟩ | ⟨-, rest, -, rfl, -⟩ | ⟨-, c, cs, rest, -, rfl, -⟩
  · exact hw
  · exact Memory.write_wf _ _ _ (toNat_lt_memWords _) hw
  · exact Memory.write_wf _ _ _ (toNat_lt_memWords _) (Memory.write_wf _ _ _ (toNat_lt_memWords _) hw)

/-- A read changes memory at KBSR and KBDR alone. -/
theorem State.memRead_word {s t : State} {a v : Word} (h : s.memRead a = some (v, t)) (b : Word)
    (hb : b ≠ Config.kbsr) (hb' : b ≠ Config.kbdr) : t.word b = s.word b := by
  rcases State.memRead_cases h with ⟨-, -, rfl⟩ | ⟨-, rest, -, rfl, -⟩ | ⟨-, c, cs, rest, -, rfl, -⟩
  · rfl
  · exact State.polledIdle_word _ _ _ hb
  · exact State.polledReady_word _ _ _ _ hb hb'

/-- A read of KBSR gives one of two words (R20). -/
theorem State.memRead_kbsr_value {s t : State} {v : Word} (h : s.memRead Config.kbsr = some (v, t)) (hw : s.mem.wf) :
    v = 0x0000 ∨ v = 0x8000 := by
  rcases State.memRead_cases h with ⟨ha, -, -⟩ | ⟨-, rest, -, rfl, rfl⟩ | ⟨-, c, cs, rest, -, rfl, rfl⟩
  · exact absurd rfl ha
  · exact .inl (s.polledIdle_kbsr rest hw)
  · exact .inr (s.polledReady_kbsr c rest hw)

/-! ## The string loop -/

/-- Whatever reads and console writes keep, a string loop that ends keeps. -/
theorem State.scanString_keeps (P : State → Prop) (codes : Word → List Word)
    (hr : ∀ s t a v, P s → s.memRead a = some (v, t) → P t) (hc : ∀ s l, P s → P (s.consoleWrite l)) :
    ∀ (fuel : Nat) (a : Word) (s t : State), P s → State.scanString codes fuel a s = some t → P t := by
  intro fuel
  induction fuel with
  | zero => intro a s t _ h; cases h
  | succ fuel ih =>
    intro a s t hp h
    unfold State.scanString at h
    split at h
    · cases h
    · rename_i w u hm
      split at h
      · cases h; exact hr _ _ _ _ hp hm
      · exact ih _ _ _ (hc _ _ (hr _ _ _ _ hp hm)) h

/-- What a string loop that ends leaves: everything but memory and the console. -/
theorem State.scanString_frame {codes : Word → List Word} {fuel : Nat} {a : Word} {s t : State}
    (h : State.scanString codes fuel a s = some t) :
    t.regs = s.regs ∧ t.pc = s.pc ∧ t.cond = s.cond ∧ t.run = s.run := by
  refine State.scanString_keeps (fun u => u.regs = s.regs ∧ u.pc = s.pc ∧ u.cond = s.cond ∧ u.run = s.run) codes
    ?_ (fun u l hu => hu) fuel a s t ⟨rfl, rfl, rfl, rfl⟩ h
  intro u v a w hu hm
  obtain ⟨h1, h2, h3, h4, -, -⟩ := State.memRead_keeps hm
  rw [h1, h2, h3, h4]; exact hu

/-- One more word of fuel changes nothing once the loop has ended. -/
theorem State.scanString_mono {codes : Word → List Word} {s t : State} {a : Word} {fuel more : Nat} (hle : fuel ≤ more)
    (h : State.scanString codes fuel a s = some t) : State.scanString codes more a s = some t := by
  induction fuel generalizing a s more with
  | zero => cases h
  | succ fuel ih =>
    obtain ⟨more, rfl⟩ : ∃ m, more = m + 1 := ⟨more - 1, by omega⟩
    unfold State.scanString at h
    unfold State.scanString
    split at h
    · cases h
    · rename_i w u hm
      split at h
      · rename_i hw; simpa [hm, hw] using h
      · rename_i hw; simpa [hm, hw] using ih (more := more) (by omega) h

/-- Memory stays canonical through a string loop. -/
theorem State.scanString_wf {codes : Word → List Word} {fuel : Nat} {a : Word} {s t : State}
    (h : State.scanString codes fuel a s = some t) (hw : s.mem.wf) : t.mem.wf :=
  State.scanString_keeps (fun u => u.mem.wf) codes (fun _ _ _ _ hu hm => State.memRead_wf hm hu) (fun _ _ hu => hu) _ _ _ _ hw h

end Sys2Proof.Machine
end

