-- ==== Sys2Proof/Laws/Exec.lean ====
section
/-! SUPPORT. What each shared shape of instruction answers when it answers a next state: one inversion lemma per shape, which proofs
about instructions cite instead of unfolding the meanings. -/

namespace Sys2Proof.Machine

/-- The state an instruction leaves when it waits for a line (R47). -/
theorem State.waitForLine_next {s t : State} (h : s.waitForLine = .next t) : t = s.setPc (s.pc - 1#16) := by
  cases h; rfl

/-- A load waits, or writes the word read and its condition. -/
theorem State.loadInto_next {s t : State} {dr : Reg} {ea : Word} (h : s.loadInto dr ea = .next t) :
    (s.memRead ea = none ∧ t = s.setPc (s.pc - 1#16)) ∨
    ∃ v u, s.memRead ea = some (v, u) ∧ t = u.setRegCC dr v := by
  unfold State.loadInto at h
  split at h
  · rename_i hm; exact .inl ⟨hm, State.waitForLine_next h⟩
  · rename_i v u hm; cases h; exact .inr ⟨v, u, hm, rfl⟩

/-- LDI waits, or writes the word its second read gives. -/
theorem execLdi_next {s t : State} {dr : Reg} {off9 : BitVec 9} (h : execLdi dr off9 s = .next t) :
    t = s.setPc (s.pc - 1#16) ∨
    ∃ ptr u v x, s.memRead (s.pcRelative off9) = some (ptr, u) ∧ u.memRead ptr = some (v, x) ∧ t = x.setRegCC dr v := by
  unfold execLdi at h
  split at h
  · exact .inl (State.waitForLine_next h)
  · rename_i ptr u hm
    split at h
    · exact .inl (State.waitForLine_next h)
    · rename_i v x hx; cases h; exact .inr ⟨ptr, u, v, x, hm, hx, rfl⟩

/-- STI waits, or stores at the pointer its read gives. -/
theorem execSti_next {s t : State} {sr : Reg} {off9 : BitVec 9} (h : execSti sr off9 s = .next t) :
    t = s.setPc (s.pc - 1#16) ∨
    ∃ ptr u, s.memRead (s.pcRelative off9) = some (ptr, u) ∧ t = u.memWrite ptr (u.reg sr) := by
  unfold execSti at h
  split at h
  · exact .inl (State.waitForLine_next h)
  · rename_i ptr u hm; cases h; exact .inr ⟨ptr, u, hm, rfl⟩

/-- GETC and IN wait, or take a non-empty line. -/
theorem State.readCharacter_next {s t : State} {echo : Word → List Word} (h : s.readCharacter echo = .next t) :
    (s.consoleIn = [] ∧ t = s.setPc (s.pc - 1#16)) ∨
    ∃ c cs rest, s.consoleIn = (c :: cs) :: rest ∧
      t = { s with regs := s.regs.set dataReg c, consoleIn := rest, consoleOut := s.consoleOut ++ echo c } := by
  match hc : s.consoleIn with
  | [] =>
    simp only [State.readCharacter, State.consoleReadLine, hc] at h
    exact .inl ⟨rfl, State.waitForLine_next h⟩
  | [] :: rest => simp only [State.readCharacter, State.consoleReadLine, hc] at h; cases h
  | (c :: cs) :: rest =>
    simp only [State.readCharacter, State.consoleReadLine, hc] at h
    cases h; exact .inr ⟨c, cs, rest, rfl, rfl⟩

/-- PUTS and PUTSP wait, or end their string loop. -/
theorem State.writeString_next {s t : State} {codes : Word → List Word} (h : s.writeString codes = .next t) :
    (State.scanString codes s.scanFuel (s.reg dataReg) s = none ∧ t = s.setPc (s.pc - 1#16)) ∨
    State.scanString codes s.scanFuel (s.reg dataReg) s = some t := by
  unfold State.writeString at h
  split at h
  · rename_i hn; exact .inl ⟨hn, State.waitForLine_next h⟩
  · rename_i u hu; cases h; exact .inr hu

/-- TRAP answers what one of the six services or the unknown-code case answers (R110). -/
theorem execTrap_cases (v : BitVec 8) (s : State) :
    (v = 0x20#8 ∧ execTrap v s = execGetc s) ∨ (v = 0x21#8 ∧ execTrap v s = execOut s) ∨
    (v = 0x22#8 ∧ execTrap v s = execPuts s) ∨ (v = 0x23#8 ∧ execTrap v s = execIn s) ∨
    (v = 0x24#8 ∧ execTrap v s = execPutsp s) ∨ (v = 0x25#8 ∧ execTrap v s = execHalt s) ∨
    ((v.toNat < 0x20 ∨ 0x25 < v.toNat) ∧ execTrap v s = .next (s.stop .faulted)) := by
  unfold execTrap
  split_ifs with h0 h1 h2 h3 h4 h5
  · exact .inl ⟨h0, rfl⟩
  · exact .inr (.inl ⟨h1, rfl⟩)
  · exact .inr (.inr (.inl ⟨h2, rfl⟩))
  · exact .inr (.inr (.inr (.inl ⟨h3, rfl⟩)))
  · exact .inr (.inr (.inr (.inr (.inl ⟨h4, rfl⟩))))
  · exact .inr (.inr (.inr (.inr (.inr (.inl ⟨h5, rfl⟩)))))
  · refine .inr (.inr (.inr (.inr (.inr (.inr ⟨?_, rfl⟩)))))
    have hb : ∀ k : Nat, k < 256 → v.toNat = k → v = BitVec.ofNat 8 k := fun k hk e => by
      apply BitVec.eq_of_toNat_eq; simp [e, Nat.mod_eq_of_lt hk]
    by_contra hc
    have : v.toNat = 0x20 ∨ v.toNat = 0x21 ∨ v.toNat = 0x22 ∨ v.toNat = 0x23 ∨ v.toNat = 0x24 ∨ v.toNat = 0x25 := by omega
    rcases this with e | e | e | e | e | e
    · exact h0 (hb _ (by omega) e)
    · exact h1 (hb _ (by omega) e)
    · exact h2 (hb _ (by omega) e)
    · exact h3 (hb _ (by omega) e)
    · exact h4 (hb _ (by omega) e)
    · exact h5 (hb _ (by omega) e)

/-- Every way a step can give a next state: the end at the top address, a fetch that waits, or an executed instruction. -/
theorem step_next {s t : State} (h : step s = .next t) :
    s.run = .running ∧
    ((s.pc = Config.topAddress ∧ t = s.stop .loopExit) ∨
     (s.pc ≠ Config.topAddress ∧ s.memRead s.pc = none ∧ t = s) ∨
     (s.pc ≠ Config.topAddress ∧ ∃ w u, s.memRead s.pc = some (w, u) ∧ exec (decode w) (u.setPc (u.pc + 1#16)) = .next t)) := by
  unfold step State.loopGuard State.fetch at h
  split_ifs at h with hr hg
  · refine ⟨by simpa using hr, ?_⟩
    have hp : s.pc ≠ Config.topAddress := by simpa using hg
    match hm : s.memRead s.pc with
    | none => rw [hm] at h; cases h; exact .inr (.inl ⟨hp, rfl, rfl⟩)
    | some (w, u) => rw [hm] at h; exact .inr (.inr ⟨hp, w, u, rfl, h⟩)
  · cases h
    exact ⟨by simpa using hr, .inl ⟨by simpa using hg, rfl⟩⟩

end Sys2Proof.Machine
end

