-- ==== Sys2Proof/Laws/Operands.lean ====
section
/-! SUPPORT. Sign extension and the condition of a word in the terms of the library and of the signed reading. -/

namespace Sys2Proof.Machine

/-- The rule's sign extension (R7) is the library's. -/
theorem sext_eq_signExtend {n : Nat} (f : BitVec n) (h : 1 ≤ n) : sext f = f.signExtend 16 := by
  apply BitVec.eq_of_getLsbD_eq
  intro i hi
  have hmsb : f.msb = f.getLsbD (n - 1) := BitVec.msb_eq_getLsbD_last f
  unfold sext
  rw [BitVec.getLsbD_signExtend, hmsb]
  by_cases hb : f.getLsbD (n - 1) = true
  · have : (0xFFFF#16).getLsbD (i - n) = true := by
      have : i - n < 16 := by omega
      generalize i - n = k at *
      interval_cases k <;> rfl
    by_cases hn : i < n
    · simp [hb, hi, hn]
    · simp [hb, hi, hn, this, BitVec.getLsbD_of_ge f i (by omega)]
  · by_cases hn : i < n
    · simp [hb, hi, hn]
    · simp [hb, hi, hn, BitVec.getLsbD_of_ge f i (by omega)]

/-- The condition of a word is that of its signed value (R16, R87). -/
theorem condOf_eq_signCond (v : Word) : condOf v = signCond v := by
  unfold condOf signCond
  have hm : v.getLsbD 15 = decide (32768 ≤ v.toNat) := by
    rw [← BitVec.msb_eq_getLsbD_last]; simp [BitVec.msb_eq_decide]
  have hz : v = 0#16 ↔ v.toNat = 0 := by constructor <;> intro h <;> [simp [h]; exact BitVec.eq_of_toNat_eq h]
  have hl := v.isLt
  rw [BitVec.toInt_eq_toNat_cond, hm]
  by_cases h0 : v.toNat = 0
  · simp [hz.2 h0]
  · have h0' : v ≠ 0#16 := fun h => h0 (hz.1 h)
    rw [if_neg h0']
    by_cases h1 : 32768 ≤ v.toNat
    · rw [if_neg (show ¬ 2 * v.toNat < 2 ^ 16 by omega), if_pos (by simpa using h1), if_pos (by omega)]
    · rw [if_pos (show 2 * v.toNat < 2 ^ 16 by omega), if_neg (by simpa using h1), if_neg (by omega), if_neg (by omega)]

end Sys2Proof.Machine
end

