-- ==== Sys2Proof/Laws/PerInstr.lean ====
section
/-! SUPPORT. The per-instruction family `TableRow`: the word the encoder writes for an instruction lies in that instruction's own row of
spec/opcode_table.json (30_encoding.md R63), one lemma for each constructor. -/

namespace Sys2Proof

/-! ## Masking a word whose selecting bits are known -/

/-- A word under the mask of its top nibble. -/
theorem mask_nibble {w : Word} {f : BitVec 4} (h : w.extractLsb' 12 4 = f) : w &&& 0xF000#16 = f ++ 0#12 := by
  subst h
  apply BitVec.eq_of_getLsbD_eq
  intro k hk
  rw [BitVec.getLsbD_and]
  repeat rw [BitVec.getLsbD_append]
  interval_cases k <;> simp

/-- A word under the mask of its top five bits. -/
theorem mask_five {w : Word} {f : BitVec 5} (h : w.extractLsb' 11 5 = f) : w &&& 0xF800#16 = f ++ 0#11 := by
  subst h
  apply BitVec.eq_of_getLsbD_eq
  intro k hk
  rw [BitVec.getLsbD_and]
  repeat rw [BitVec.getLsbD_append]
  interval_cases k <;> simp

/-- A word under the mask of its top nibble and the immediate flag. -/
theorem mask_flag {w : Word} {f : BitVec 4} {b : BitVec 1} (h : w.extractLsb' 12 4 = f) (hb : w.extractLsb' 5 1 = b) :
    w &&& 0xF020#16 = f ++ 0#6 ++ b ++ 0#5 := by
  subst h hb
  apply BitVec.eq_of_getLsbD_eq
  intro k hk
  rw [BitVec.getLsbD_and]
  repeat rw [BitVec.getLsbD_append]
  interval_cases k <;> simp

namespace Laws.TableRow

/-- The encoder's word for a well-formed instruction matches the instruction's row. -/
def Statement (i : Instr) : Prop := i.wf = true → encode i &&& i.rowMask = i.rowMatch

theorem br (n z p : Bool) (off9 : BitVec 9) : Statement (.br n z p off9) := fun _ =>
  mask_nibble (f := 0x0#4) (by
    rw [encode]
    repeat rw [extract_append_high _ _ (by decide)]
    rfl)

theorem addReg (dr sr1 sr2 : Reg) : Statement (.addReg dr sr1 sr2) := fun _ =>
  mask_flag (f := 0x1#4) (b := 0#1) (by
    rw [encode]
    repeat rw [extract_append_high _ _ (by decide)]
    rfl)
    (by rw [encode, extract_append_high _ _ (by decide), extract_append_low _ _ (by decide)]; rfl)

theorem addImm (dr sr1 : Reg) (imm5 : BitVec 5) : Statement (.addImm dr sr1 imm5) := fun _ =>
  mask_flag (f := 0x1#4) (b := 1#1) (by
    rw [encode]
    repeat rw [extract_append_high _ _ (by decide)]
    rfl)
    (by rw [encode, extract_append_high _ _ (by decide), extract_append_low _ _ (by decide)]; rfl)

theorem ld (dr : Reg) (off9 : BitVec 9) : Statement (.ld dr off9) := fun _ =>
  mask_nibble (f := 0x2#4) (by
    rw [encode]
    repeat rw [extract_append_high _ _ (by decide)]
    rfl)

theorem st (sr : Reg) (off9 : BitVec 9) : Statement (.st sr off9) := fun _ =>
  mask_nibble (f := 0x3#4) (by
    rw [encode]
    repeat rw [extract_append_high _ _ (by decide)]
    rfl)

theorem jsr (off11 : BitVec 11) : Statement (.jsr off11) := fun _ =>
  mask_five (f := 0b01001#5) (by rw [encode, extract_append_high _ _ (by decide)]; rfl)

theorem jsrr (baseR : Reg) : Statement (.jsrr baseR) := fun _ =>
  mask_five (f := 0b01000#5) (by
    rw [encode, extract_append_high _ _ (by decide), extract_append_high _ _ (by decide)]; rfl)

theorem andReg (dr sr1 sr2 : Reg) : Statement (.andReg dr sr1 sr2) := fun _ =>
  mask_flag (f := 0x5#4) (b := 0#1) (by
    rw [encode]
    repeat rw [extract_append_high _ _ (by decide)]
    rfl)
    (by rw [encode, extract_append_high _ _ (by decide), extract_append_low _ _ (by decide)]; rfl)

theorem andImm (dr sr1 : Reg) (imm5 : BitVec 5) : Statement (.andImm dr sr1 imm5) := fun _ =>
  mask_flag (f := 0x5#4) (b := 1#1) (by
    rw [encode]
    repeat rw [extract_append_high _ _ (by decide)]
    rfl)
    (by rw [encode, extract_append_high _ _ (by decide), extract_append_low _ _ (by decide)]; rfl)

theorem ldr (dr baseR : Reg) (off6 : BitVec 6) : Statement (.ldr dr baseR off6) := fun _ =>
  mask_nibble (f := 0x6#4) (by
    rw [encode]
    repeat rw [extract_append_high _ _ (by decide)]
    rfl)

theorem str (sr baseR : Reg) (off6 : BitVec 6) : Statement (.str sr baseR off6) := fun _ =>
  mask_nibble (f := 0x7#4) (by
    rw [encode]
    repeat rw [extract_append_high _ _ (by decide)]
    rfl)

theorem rti : Statement .rti := fun _ => by decide

theorem not (dr sr : Reg) : Statement (.not dr sr) := fun _ =>
  mask_nibble (f := 0x9#4) (by
    rw [encode]
    repeat rw [extract_append_high _ _ (by decide)]
    rfl)

theorem ldi (dr : Reg) (off9 : BitVec 9) : Statement (.ldi dr off9) := fun _ =>
  mask_nibble (f := 0xA#4) (by
    rw [encode]
    repeat rw [extract_append_high _ _ (by decide)]
    rfl)

theorem sti (sr : Reg) (off9 : BitVec 9) : Statement (.sti sr off9) := fun _ =>
  mask_nibble (f := 0xB#4) (by
    rw [encode]
    repeat rw [extract_append_high _ _ (by decide)]
    rfl)

theorem jmp (baseR : Reg) : Statement (.jmp baseR) := fun _ =>
  mask_nibble (f := 0xC#4) (by
    rw [encode]
    repeat rw [extract_append_high _ _ (by decide)]
    rfl)

theorem res : Statement .res := fun _ => by decide

theorem lea (dr : Reg) (off9 : BitVec 9) : Statement (.lea dr off9) := fun _ =>
  mask_nibble (f := 0xE#4) (by
    rw [encode]
    repeat rw [extract_append_high _ _ (by decide)]
    rfl)

theorem trap (vect8 : BitVec 8) : Statement (.trap vect8) := fun _ =>
  mask_nibble (f := 0xF#4) (by rw [encode, extract_append_high _ _ (by decide)]; rfl)

theorem getc : Statement .getc := fun _ => by decide

theorem out : Statement .out := fun _ => by decide

theorem puts : Statement .puts := fun _ => by decide

theorem inEcho : Statement .inEcho := fun _ => by decide

theorem putsp : Statement .putsp := fun _ => by decide

theorem halt : Statement .halt := fun _ => by decide

end Laws.TableRow

end Sys2Proof
end

