-- ==== Sys2Proof/Tests/Slice0.lean ====
section
/-! SUPPORT. The model's own tests: the smoke test of the well-formedness check, words written out from the formats of 30_encoding.md R52,
single steps with the expected results of spec/95_test_vectors.md (its vector numbers are in the comments), and for every statement with
hypotheses a state and operands that meet them. -/

namespace Sys2Proof.Tests

open Sys2Proof.Machine

/-! ## Small states -/

/-- Words stored one after the other into empty memory. -/
def words (cells : List (Nat × Word)) : Memory := cells.foldl (fun m c => m.write c.1 c.2) []

/-- The reset state with words in memory. -/
def withWords (cells : List (Nat × Word)) : State := { State.reset with mem := words cells }

/-- The reset state with a word at 0x3000, more words, and lines to come. -/
def start (ir : Word) (cells : List (Nat × Word) := []) (lines : List Line := []) : State :=
  { State.reset with mem := words ((0x3000, ir) :: cells), consoleIn := lines }

/-- The state with a register changed. -/
def reg (s : State) (r : Reg) (v : Word) : State := { s with regs := s.regs.set r v }

/-- A check of the next state an answer gives. -/
def nextIs (p : State → Bool) : Answer → Bool
  | .next t => p t
  | .fault _ => false
  | .refused _ => false

/-- Registers 0 and 1, the condition code and the program counter. -/
def core4 (r0 r1 : Word) (c : Cond) (pc : Word) (t : State) : Bool :=
  decide (t.regs[(0 : Reg)] = r0) && decide (t.regs[(1 : Reg)] = r1) && decide (t.cond = c) && decide (t.pc = pc)

/-! ## WellFormed: the one check, each service code refused as a TRAP term -/

theorem test_wf_refuses_0x20 : (Instr.trap 0x20).wf = false := by decide
theorem test_wf_refuses_0x21 : (Instr.trap 0x21).wf = false := by decide
theorem test_wf_refuses_0x22 : (Instr.trap 0x22).wf = false := by decide
theorem test_wf_refuses_0x23 : (Instr.trap 0x23).wf = false := by decide
theorem test_wf_refuses_0x24 : (Instr.trap 0x24).wf = false := by decide
theorem test_wf_refuses_0x25 : (Instr.trap 0x25).wf = false := by decide
theorem test_wf_takes_0x1F_and_0x26 : (Instr.trap 0x1F).wf = true ∧ (Instr.trap 0x26).wf = true := by decide

/-! ## Decoding: each constructor's word from the formats of R52 -/

theorem test_decode_br : decode 0b0000_101_000000101#16 = .br true false true 5 := by decide
theorem test_decode_addReg : decode 0b0001_010_001_0_11_100#16 = .addReg 2 1 4 := by decide
theorem test_decode_addImm : decode 0b0001_010_001_1_10000#16 = .addImm 2 1 0x10 := by decide
theorem test_decode_ld : decode 0b0010_011_111111101#16 = .ld 3 0x1FD := by decide
theorem test_decode_st : decode 0b0011_110_000001000#16 = .st 6 8 := by decide
theorem test_decode_jsr : decode 0b0100_1_10000000001#16 = .jsr 0x401 := by decide
theorem test_decode_jsrr : decode 0b0100_0_11_101_010101#16 = .jsrr 5 := by decide
theorem test_decode_andReg : decode 0b0101_111_110_0_00_101#16 = .andReg 7 6 5 := by decide
theorem test_decode_andImm : decode 0b0101_001_010_1_01111#16 = .andImm 1 2 0x0F := by decide
theorem test_decode_ldr : decode 0b0110_010_001_100001#16 = .ldr 2 1 0x21 := by decide
theorem test_decode_str : decode 0b0111_101_100_000010#16 = .str 5 4 2 := by decide
theorem test_decode_rti : decode 0b1000_000100100011#16 = .rti := by decide
theorem test_decode_not : decode 0b1001_010_001_000000#16 = .not 2 1 := by decide
theorem test_decode_ldi : decode 0b1010_001_000000001#16 = .ldi 1 1 := by decide
theorem test_decode_sti : decode 0b1011_011_000000101#16 = .sti 3 5 := by decide
theorem test_decode_jmp : decode 0b1100_111_010_000111#16 = .jmp 2 := by decide
theorem test_decode_res : decode 0b1101_111111111111#16 = .res := by decide
theorem test_decode_lea : decode 0b1110_100_000001010#16 = .lea 4 0x0A := by decide
theorem test_decode_trap : decode 0b1111_0000_00011111#16 = .trap 0x1F ∧ decode 0b1111_1010_00100110#16 = .trap 0x26 := by decide
theorem test_decode_getc : decode 0b1111_0000_00100000#16 = .getc := by decide
theorem test_decode_out : decode 0b1111_0000_00100001#16 = .out := by decide
theorem test_decode_puts : decode 0b1111_0000_00100010#16 = .puts := by decide
theorem test_decode_inEcho : decode 0b1111_0000_00100011#16 = .inEcho := by decide
theorem test_decode_putsp : decode 0b1111_0000_00100100#16 = .putsp := by decide
theorem test_decode_halt : decode 0b1111_1111_00100101#16 = .halt := by decide

/-- The assembly notation of the test programs (95_test_vectors.md P2): NOT R2, R2 is 94BF, LDR R5, R4, #1 is 6B01. -/
theorem test_encode_program_words : encode (.not 2 2) = 0x94BF ∧ encode (.ldr 5 4 1) = 0x6B01 ∧ encode (.sti 3 5) = 0xB605 := by
  decide

/-- Zero bits are the NOP word; a number that is no word is no instruction. -/
theorem test_decodeTableWord : decodeTableWord 16 0 = some (.br false false false 0) ∧ decodeTableWord 17 0x10000 = none := by decide

/-! ## Sign extension (95_test_vectors.md S1) -/

theorem test_sext_5 : sext 0x0F#5 = 0x000F ∧ sext 0x10#5 = 0xFFF0 := by decide
theorem test_sext_6 : sext 0x1F#6 = 0x001F ∧ sext 0x20#6 = 0xFFE0 := by decide
theorem test_sext_9 : sext 0x0FF#9 = 0x00FF ∧ sext 0x100#9 = 0xFF00 := by decide
theorem test_sext_11 : sext 0x3FF#11 = 0x03FF ∧ sext 0x400#11 = 0xFC00 := by decide

/-! ## Arithmetic and logic -/

/-- A1. -/
theorem test_addReg_wraps : nextIs (core4 0x0000 0xFFFF .z 0x3001) (step (reg (reg (start 0x1042) 1 0xFFFF) 2 0x0001)) = true := by decide
/-- A4. -/
theorem test_addReg_same_register : nextIs (core4 0x0000 0x8000 .n 0x3001) (step (reg (start 0x1241) 1 0x4000)) = true := by decide
/-- A6. -/
theorem test_addImm_minus_one : nextIs (core4 0xFFFF 0x0000 .n 0x3001) (step (start 0x103F)) = true := by decide
/-- A7. -/
theorem test_addImm_wraps : nextIs (core4 0x0000 0x0000 .z 0x3001) (step (reg (start 0x102F) 0 0xFFF1)) = true := by decide
/-- A9. -/
theorem test_andReg : nextIs (core4 0x8001 0x8001 .n 0x3001) (step (reg (reg (start 0x5042) 1 0x8001) 2 0xFFFF)) = true := by decide
/-- A12. -/
theorem test_andImm_extends : nextIs (core4 0xBEE0 0x0000 .n 0x3001) (step (reg (start 0x5030) 0 0xBEEF)) = true := by decide
/-- A15. -/
theorem test_not_positive : nextIs (core4 0x7FFF 0x0000 .p 0x3001) (step (reg (start 0x903F) 0 0x8000)) = true := by decide
/-- A16. -/
theorem test_not_ignores_low_bits : nextIs (core4 0xFF00 0x0000 .n 0x3001) (step (reg (start 0x9000) 0 0x00FF)) = true := by decide

/-! ## Loads and stores -/

/-- L1. -/
theorem test_ld_own_word : nextIs (core4 0x21FF 0x0000 .p 0x3001) (step (start 0x21FF)) = true := by decide
/-- L2. -/
theorem test_ld_wraps :
    nextIs (core4 0x7777 0x0000 .p 0xFFF1) (step { withWords [(0xFFF0, 0x20FF), (0x00F0, 0x7777)] with pc := 0xFFF0 }) = true := by decide
/-- L4. -/
theorem test_st_next_word :
    nextIs (fun t => decide (t.word 0x3001 = 0xF025) && core4 0xF025 0x0000 .z 0x3001 t) (step (reg (start 0x3000) 0 0xF025)) = true := by
  decide
/-- L6. -/
theorem test_ldi_polls :
    nextIs (fun t => core4 0x0000 0x8000 .n 0x3001 t && decide (t.word 0xFE00 = 0x8000) && decide (t.word 0xFE02 = 0x0041) &&
      decide (t.consoleIn = [])) (step (start 0xA201 [(0x3002, 0xFE00)] [[0x0041]])) = true := by decide
/-- L8. -/
theorem test_ldi_data_register_is_plain :
    nextIs (fun t => core4 0x0000 0x0041 .p 0x3001 t && decide (t.consoleIn = [[0x0042]]))
      (step (start 0xA201 [(0x3002, 0xFE02), (0xFE02, 0x0041)] [[0x0042]])) = true := by decide
/-- L9. -/
theorem test_sti_to_kbsr_is_plain :
    nextIs (fun t => core4 0x0555 0x0000 .z 0x3001 t && decide (t.word 0xFE00 = 0x0555) && decide (t.consoleIn = [[0x0041]]))
      (step (reg (start 0xB001 [(0x3002, 0xFE00)] [[0x0041]]) 0 0x0555)) = true := by decide
/-- L10. -/
theorem test_ldr_base_is_destination :
    nextIs (core4 0x0000 0x9999 .n 0x3001) (step (reg (start 0x6240 [(0x4000, 0x9999)]) 1 0x4000)) = true := by decide
/-- L12. -/
theorem test_ldr_wraps_downward :
    nextIs (core4 0x0001 0x0010 .p 0x3001) (step (reg (start 0x6060 [(0xFFF0, 0x0001)]) 1 0x0010)) = true := by decide
/-- L14. -/
theorem test_str :
    nextIs (fun t => decide (t.word 0x401F = 0xAAAA) && core4 0xAAAA 0x4000 .z 0x3001 t)
      (step (reg (reg (start 0x705F) 0 0xAAAA) 1 0x4000)) = true := by decide
/-- L15. -/
theorem test_lea_back : nextIs (core4 0x3000 0x0000 .p 0x3001) (step (start 0xE1FF)) = true := by decide
/-- L17. -/
theorem test_lea_wraps : nextIs (core4 0x0000 0x0000 .z 0xFFFF) (step { withWords [(0xFFFE, 0xE001)] with pc := 0xFFFE }) = true := by
  decide

/-! ## Control transfer -/

/-- 95_test_vectors.md 2.3, mask 100. -/
theorem test_brn :
    nextIs (fun t => decide (t.pc = 0x3006)) (step { start 0x0805 with cond := .n }) = true ∧
    nextIs (fun t => decide (t.pc = 0x3001)) (step { start 0x0805 with cond := .p }) = true := by decide
/-- 95_test_vectors.md 2.3, mask 011. -/
theorem test_brzp :
    nextIs (fun t => decide (t.pc = 0x3006)) (step { start 0x0605 with cond := .z }) = true ∧
    nextIs (fun t => decide (t.pc = 0x3001)) (step { start 0x0605 with cond := .n }) = true := by decide
/-- C5. -/
theorem test_jmp_ignores_bits : nextIs (fun t => decide (t.pc = 0x1234)) (step (reg (start 0xCE87) 2 0x1234)) = true := by decide
/-- C6, S5. -/
theorem test_jsr :
    nextIs (fun t => decide (t.pc = 0x3003) && decide (t.regs[(7 : Reg)] = 0x3001) && decide (t.cond = .n))
      (step { start 0x4802 with cond := .n }) = true := by decide
/-- C8. -/
theorem test_jsr_back : nextIs (fun t => decide (t.pc = 0x2C01)) (step (start 0x4C00)) = true := by decide
/-- C10. -/
theorem test_jsrr_through_link :
    nextIs (fun t => decide (t.pc = 0x3001) && decide (t.regs[(7 : Reg)] = 0x3001)) (step (reg (start 0x41C0) 7 0x5000)) = true := by decide
/-- C11. -/
theorem test_jsrr :
    nextIs (fun t => decide (t.pc = 0x5000) && decide (t.regs[(7 : Reg)] = 0x3001)) (step (reg (start 0x4080) 2 0x5000)) = true := by decide
/-- C12. -/
theorem test_rti : step { start 0x8123 with cond := .n } = .next { start 0x8123 with cond := .n, pc := 0x3001 } := by rfl
/-- C13. -/
theorem test_res : step { start 0xDFFF with cond := .n } = .next { start 0xDFFF with cond := .n, pc := 0x3001 } := by rfl

/-! ## Traps -/

/-- T1. -/
theorem test_getc :
    nextIs (fun t => core4 0x0061 0x0000 .n 0x3001 t && decide (t.regs[(7 : Reg)] = 0x7777) && decide (t.consoleIn = []) &&
      decide (t.consoleOut = [])) (step { reg (reg (start 0xF020 [] [[0x0061, 0x0062]]) 0 0xFFFF) 7 0x7777 with cond := .n }) = true := by
  decide
/-- T2. -/
theorem test_getc_empty_line : step (start 0xF020 [] [[]]) = .refused .noFirstCharacter := by rfl
/-- T4. -/
theorem test_out_whole_word :
    step (reg (start 0xF021) 0 0x1234) = .next { reg (start 0xF021) 0 0x1234 with pc := 0x3001, consoleOut := [0x1234, Config.newline] } := by
  rfl
/-- T5, S6. -/
theorem test_puts :
    nextIs (fun t => decide (t.consoleOut = [0x0048, 0x0049]) && core4 0x4000 0x0000 .z 0x3001 t)
      (step (reg (start 0xF022 [(0x4000, 0x0048), (0x4001, 0x0049)]) 0 0x4000)) = true := by decide
/-- T17. -/
theorem test_puts_over_kbsr :
    nextIs (fun t => decide (t.consoleOut = [0x0041, 0x8000]) && decide (t.word 0xFE02 = 0x007A) && decide (t.word 0xFE00 = 0x8000))
      (step (reg (start 0xF022 [(0xFDFF, 0x0041)] [[0x007A]]) 0 0xFDFF)) = true := by decide
/-- T8. -/
theorem test_in :
    step { start 0xF023 [] [[0x0079]] with cond := .p } =
      .next { reg (start 0xF023) 0 0x0079 with cond := .p, pc := 0x3001, consoleOut := [0x0079, Config.newline] } := by rfl
/-- T10. -/
theorem test_putsp :
    nextIs (fun t => decide (t.consoleOut = [0x0000, 0x0041, 0x0042, 0x0043]))
      (step (reg (start 0xF024 [(0x4000, 0x4100), (0x4001, 0x0042), (0x4002, 0x0043)]) 0 0x4000)) = true := by decide
/-- T11. -/
theorem test_halt :
    step (start 0xF025) = .next { start 0xF025 with pc := 0x3001, run := .halted, consoleOut := [] ++ Config.haltNotice } := by rfl
/-- T16, T13. -/
theorem test_unknown_trap :
    step (start 0xF01F) = .next { start 0xF01F with pc := 0x3001, run := .faulted } ∧
    step (start 0xF026) = .next { start 0xF026 with pc := 0x3001, run := .faulted } := ⟨rfl, rfl⟩

/-! ## The loop guard, the fetch, reset -/

/-- G2. -/
theorem test_guard : step { withWords [(0xFFFF, 0xF025)] with pc := 0xFFFF } =
    .next { withWords [(0xFFFF, 0xF025)] with pc := 0xFFFF, run := .loopExit } := by rfl
/-- G4, its second step. -/
theorem test_fetch_polls :
    nextIs (fun t => decide (t.word 0xFE00 = 0x8000) && decide (t.word 0xFE02 = 0x0041) && decide (t.pc = 0xFE01) && decide (t.cond = .z))
      (step { withWords [(0xFE00, 0x1021)] with pc := 0xFE00, consoleIn := [[0x0041]] }) = true := by decide
/-- I6. -/
theorem test_boot_big_endian :
    boot OpenReset.default [] (.bytes [0x25, 0x10, 0x00, 0x30]) = .ok { withWords [(0x2510, 0x0030)] with pc := 0x2510 } := by rfl
/-- I8. -/
theorem test_boot_past_top : boot OpenReset.default [] (.bytes [0xFF, 0xFF, 0xF0, 0x25, 0xF0, 0x25]) = .error .pastTop := by rfl
/-- I9. -/
theorem test_boot_no_poll :
    boot OpenReset.default [] (.bytes [0xFE, 0x00, 0x12, 0x34, 0x00, 0x00, 0x00, 0x58]) =
      .ok { withWords [(0xFE00, 0x1234), (0xFE02, 0x0058)] with pc := 0xFE00 } := by rfl
/-- S4 through the host's core. -/
theorem test_round_trip : nextIs (core4 0x0005 0x0000 .p 0x3001) (core.step (core.reset.withFetchWord 16 0x1025)) = true := by decide

/-! ## Witnesses: a state and operands that meet the hypotheses of each statement, clause by clause -/

theorem witness_DecodeOfEncodeIsTheInstruction : (Instr.trap 0xFF).wf = true ∧ (Instr.br true true true 0x1FF).wf = true := by decide

/-- Another row's term matches the word with a smaller mask, and one with the same mask. -/
theorem witness_EveryWordMatchesItsMostSpecificRow :
    0xF025#16 &&& (Instr.trap 0).rowMask = (Instr.trap 0).rowMatch ∧ 0xF025#16 &&& Instr.halt.rowMask = Instr.halt.rowMatch ∧
    Instr.halt.rowMask = (decode 0xF025).rowMask := by decide

theorem witness_IgnoredBitsAreNotExamined :
    0xF020#16 &&& ~~~ (decode 0xF020).ignoredMask = 0xFF20#16 &&& ~~~ (decode 0xF020).ignoredMask := by decide

/-- A word for every opcode, and the codes at the edges of the six services. -/
theorem witness_DecodingProcedureReadsTheFields :
    (∀ k : Fin 16, (BitVec.ofNat 16 (4096 * k.val) : Word).toNat / 4096 = k.val) ∧
    (∀ k : Fin 6, (0xF020#16 + BitVec.ofNat 16 k.val).toNat % 256 = 0x20 + k.val) ∧
    (0xF01F#16).toNat % 256 < 0x20 ∧ 0x25 < (0xF026#16).toNat % 256 := by decide

/-- Widths 1, 5 and 16, each clause at its boundary. -/
theorem witness_SignExtensionKeepsTheSignedValue :
    (0b0#1).toNat < 2 ^ (1 - 1) ∧ 2 ^ (1 - 1) ≤ (0b1#1).toNat ∧ (0x0F#5).toNat < 2 ^ (5 - 1) ∧ 2 ^ (5 - 1) ≤ (0x10#5).toNat ∧
    (0x7FFF#16).toNat < 2 ^ (16 - 1) ∧ 2 ^ (16 - 1) ≤ (0x8000#16).toNat := by decide

theorem witness_OnlySevenInstructionsWriteTheCondition :
    (∃ t, exec (.jsr 2) State.reset = .next t) ∧ condReg (.jsr 2) = none ∧
    (∃ t, exec (.ld 3 0) State.reset = .next t ∧ t.pc = State.reset.pc) ∧ condReg (.ld 3 0) = some 3 := ⟨⟨_, rfl⟩, rfl, ⟨_, rfl, rfl⟩, rfl⟩

theorem witness_OnlyBranchReadsTheCondition : Instr.opcode (.lea 1 2) ≠ .br ∧ ∃ t, exec (.lea 1 2) State.reset = .next t :=
  ⟨by decide, ⟨_, rfl⟩⟩

/-- The four clauses: another address, no line, an empty line, a line with a character. -/
theorem witness_ReadPollsTheKeyboardAtKbsrOnly :
    (withWords [(0xFE00, 0x1234)]).mem.wf ∧ (0xFE02 : Word) ≠ 0xFE00 ∧ State.reset.consoleIn = [] ∧
    (start 0 [] [[], [1]]).consoleIn = [] :: [[1]] ∧ (start 0 [] [[2, 3]]).consoleIn = (2 :: [3]) :: [] := by decide

theorem witness_WriteIsPlainStorageEverywhere : (withWords [(0xFE00, 0x1234)]).mem.wf ∧ (0xFE02 : Word) ≠ 0xFE00 := by decide

theorem witness_RepeatedIdlePollsReportNotReady :
    (start 0 [(0xFE02, 0x0058)] [[], []]).mem.wf ∧ (start 0 [(0xFE02, 0x0058)] [[], []]).consoleIn = [] :: [] :: [] := by decide

/-- Both forms reading KBSR with a line there: LD over a distance of 0, LDR from R1. -/
theorem witness_LoadWritesWordReadAndCondition :
    let s : State := { reg (start 0 [] [[]]) 1 0xFE20 with pc := 0xFE00 }
    wordPlus s.pc (0x000#9).toInt = 0xFE00 ∧ s.CanRead (wordPlus s.pc (0x000#9).toInt) ∧
    wordPlus s.regs[(1 : Reg)] (0x20#6).toInt = 0xFE00 ∧ s.CanRead (wordPlus s.regs[(1 : Reg)] (0x20#6).toInt) :=
  ⟨by decide, fun _ => by decide, by decide, fun _ => by decide⟩

/-- The pointer word holds KBSR's address and a line is there. -/
theorem witness_IndirectLoadReadsPointerThenDatum :
    let s : State := { start 0 [(0x3002, 0xFE00)] [[0x41]] with pc := 0x3001 }
    s.mem.wf ∧ s.CanRead (wordPlus s.pc (1#9).toInt) ∧ s.word (wordPlus s.pc (1#9).toInt) = 0xFE00 ∧
    s.CanRead (s.word (wordPlus s.pc (1#9).toInt)) := ⟨by decide, fun _ => by decide, by decide, fun _ => by decide⟩

theorem witness_StoreWritesOneWord :
    (start 0xF025).mem.wf ∧ (0x3001 : Word) ≠ (start 0xF025).pcRelative 0#9 ∧ (0x3001 : Word) ≠ (start 0xF025).basePlus 0 0#6 := by decide

/-- The pointer is read from KBSR itself, with a line there. -/
theorem witness_IndirectStoreWritesAtThePointer :
    let s : State := { start 0 [] [[0x41]] with pc := 0xFDFF }
    s.mem.wf ∧ s.pcRelative 1#9 = 0xFE00 ∧ s.CanRead (s.pcRelative 1#9) ∧ (0x3000 : Word) ≠ 0x8000 :=
  ⟨by decide, by decide, fun _ => by decide, by decide⟩

theorem witness_UnknownTrapCodeFaultsTheRun : (0x1F#8).toNat < 0x20 ∧ 0x25 < (0x26#8).toNat := by decide

theorem witness_CharacterReadTakesOneLine : (start 0 [] [[0x61, 0x62], []]).consoleIn = (0x61 :: [0x62]) :: [[]] := by decide

theorem witness_CharacterReadOfEmptyLineIsRefused : (start 0 [] [[], [0x61]]).consoleIn = [] :: [[0x61]] := by decide

/-- The loop over the string "A" at 0xFDFF that goes on into KBSR (T17): two words, then the zero word at 0xFE01. -/
theorem witness_PutsRunsTheStringLoop :
    let s : State := reg (start 0xF022 [(0xFDFF, 0x0041)] [[0x007A]]) 0 0xFDFF
    ∃ t, StringScan (fun w => [w]) s.regs[(0 : Reg)] s t ∧ t.consoleOut = [0x0041, 0x8000] :=
  ⟨_, .more (w := 0x0041) rfl (by decide) (.more (w := 0x8000) rfl (by decide) (.stop rfl)), rfl⟩

theorem witness_PutspRunsThePackedStringLoop :
    let s : State := reg (start 0xF024 [(0x4000, 0x4948)]) 0 0x4000
    ∃ t, StringScan packedCodes s.regs[(0 : Reg)] s t ∧ t.consoleOut = [0x0048, 0x0049] :=
  ⟨_, .more (w := 0x4948) rfl (by decide) (.stop rfl), rfl⟩

/-- A string at KBSR with no line left: the loop has no first read. -/
theorem noScanAtKbsr (codes : Word → List Word) (s : State) (h : s.consoleIn = []) : ¬ ∃ t, StringScan codes 0xFE00 s t := by
  have hr : s.memRead 0xFE00 = none := by
    simp [State.memRead, State.keyboardPoll, State.consoleReadLine, h, Config.kbsr]
  rintro ⟨t, ht⟩
  cases ht with
  | stop e => rw [hr] at e; cases e
  | more e _ _ => rw [hr] at e; cases e

theorem witness_BlockedServicesGoBackToTheInstruction :
    let s : State := reg State.reset 0 0xFE00
    s.consoleIn = [] ∧ (¬ ∃ t, StringScan (fun w => [w]) s.regs[(0 : Reg)] s t) ∧
    ¬ ∃ t, StringScan packedCodes s.regs[(0 : Reg)] s t :=
  ⟨rfl, noScanAtKbsr _ _ rfl, noScanAtKbsr _ _ rfl⟩

/-- Two words that wrap from 0xFFFF to 0x0000 (T7), and the empty string. -/
theorem witness_PlainStringsAreWrittenInOrder :
    (let s : State := reg (withWords [(0xFFFF, 0x0041), (0x0000, 0x0042)]) 0 0xFFFF
     (∀ j, j < 2 → s.word (s.regs[(0 : Reg)] + BitVec.ofNat 16 j) ≠ 0x0000 ∧ s.regs[(0 : Reg)] + BitVec.ofNat 16 j ≠ 0xFE00) ∧
     s.word (s.regs[(0 : Reg)] + BitVec.ofNat 16 2) = 0x0000 ∧ s.regs[(0 : Reg)] + BitVec.ofNat 16 2 ≠ 0xFE00) ∧
    (State.reset.word (State.reset.regs[(0 : Reg)] + BitVec.ofNat 16 0) = 0x0000 ∧
     State.reset.regs[(0 : Reg)] + BitVec.ofNat 16 0 ≠ 0xFE00) := by decide

theorem witness_OnlyTheTableRegisterIsWritten :
    ∃ t, exec (.jsr 2) State.reset = .next t ∧ t.regs[(7 : Reg)] ≠ State.reset.regs[(7 : Reg)] := ⟨_, rfl, by decide⟩

/-- A word changed by a store, and one changed by a poll. -/
theorem witness_MemoryChangesOnlyByStoreOrPoll :
    (State.reset.mem.wf ∧ ∃ t, exec (.st 0 0) (reg State.reset 0 5) = .next t ∧ t.word 0x3000 ≠ (reg State.reset 0 5).word 0x3000) ∧
    ∃ t, exec (.ldr 0 1 0) (reg (start 0 [] [[1]]) 1 0xFE00) = .next t ∧ t.word 0xFE00 ≠ (reg (start 0 [] [[1]]) 1 0xFE00).word 0xFE00 :=
  ⟨⟨by decide, _, rfl, by decide⟩, _, rfl, by decide⟩

theorem witness_TrapsKeepConditionLinkAndMemory :
    State.reset.mem.wf ∧ Instr.opcode .out = .trap ∧ (∃ t, exec .out State.reset = .next t) ∧ isServiceCode 0x26 = false :=
  ⟨by decide, rfl, ⟨_, rfl⟩, by decide⟩

theorem witness_ConsoleOutputIsOnlyAppendedAndNeverRead : ∃ t, step (start 0xF023 [] [[0x79], []]) = .next t ∧ t.consoleIn = [[]] :=
  ⟨_, rfl, rfl⟩

theorem witness_IndirectLoadPollsAtMostOnce :
    let s : State := { start 0 [(0x3002, 0xFE00)] [[0x41]] with pc := 0x3001 }
    s.mem.wf ∧ ∃ t, exec (.ldi 1 1) s = .next t ∧ t.consoleIn = [] := ⟨by decide, _, rfl, rfl⟩

/-- A fetch from plain memory, and one from KBSR with a line there. -/
theorem witness_StepRunsTheDecodedInstruction :
    (start 0x1025).Fetches ∧ (start 0x1025).memRead (start 0x1025).pc = some (0x1025, start 0x1025) ∧ (start 0x1025).pc ≠ 0xFE00 ∧
    ∃ t, State.Fetches { start 0 [] [[]] with pc := 0xFE00 } ∧ State.memRead { start 0 [] [[]] with pc := 0xFE00 } 0xFE00 = some (0, t) :=
  ⟨⟨rfl, by decide⟩, rfl, by decide, _, ⟨rfl, by decide⟩, rfl⟩

/-- Both kinds of line. -/
theorem witness_FetchFromKbsrPollsAndDoesNothing :
    let s (l : Line) : State := { start 0 [] [l] with pc := 0xFE00 }
    (s []).mem.wf ∧ (s []).run = .running ∧ (s []).pc = 0xFE00 ∧ (s []).consoleIn = [] :: [] ∧
    (s [0x41]).mem.wf ∧ (s [0x41]).run = .running ∧ (s [0x41]).pc = 0xFE00 ∧ (s [0x41]).consoleIn = [0x41] :: [] := by decide

theorem witness_NoStepAtTheTopOrAfterTheEnd :
    (let s : State := { State.reset with pc := 0xFFFF }; s.run = .running ∧ s.pc = 0xFFFF) ∧
    State.run { State.reset with run := .faulted } ≠ .running := by decide

/-- HALT, an unknown code and the top address. -/
theorem witness_RunEndsInThreeWaysOnly :
    ((start 0xF025).mem.wf ∧ (start 0xF025).run = .running ∧ ∃ t, step (start 0xF025) = .next t ∧ t.run ≠ .running) ∧
    ((start 0xF000).mem.wf ∧ (start 0xF000).run = .running ∧ ∃ t, step (start 0xF000) = .next t ∧ t.run ≠ .running) ∧
    ∃ t, step { State.reset with pc := 0xFFFF } = .next t ∧ t.run ≠ .running :=
  ⟨⟨by decide, rfl, _, rfl, by decide⟩, ⟨by decide, rfl, _, rfl, by decide⟩, _, rfl, by decide⟩

/-- A step that completes and one that is refused. -/
theorem witness_RunningStepFailsOnlyForEmptyLine :
    (start 0x1025).mem.wf ∧ (start 0x1025).run = .running ∧ (∃ t, step (start 0x1025) = .next t) ∧
    (start 0xF020 [] [[]]).mem.wf ∧ (start 0xF020 [] [[]]).run = .running ∧ step (start 0xF020 [] [[]]) = .refused .noFirstCharacter :=
  ⟨by decide, rfl, ⟨_, rfl⟩, by decide, rfl, rfl⟩

/-- The fetch, GETC and IN. -/
theorem witness_StepWaits_fetch_getc_in :
    State.Fetches { State.reset with pc := 0xFE00 } ∧ (start 0xF020).Fetches ∧ (start 0xF020).consoleIn = [] ∧
    decode ((start 0xF020).word (start 0xF020).pc) = .getc ∧ decode ((start 0xF023).word (start 0xF023).pc) = .inEcho :=
  ⟨⟨rfl, by decide⟩, ⟨rfl, by decide⟩, by decide, by decide, by decide⟩

/-- LD, LDR and STI that read KBSR. -/
theorem witness_StepWaits_loads :
    (let s : State := { withWords [(0xFDFE, 0x2201)] with pc := 0xFDFE }
     s.Fetches ∧ s.consoleIn = [] ∧ s.pc ≠ 0xFE00 ∧ decode (s.word s.pc) = .ld 1 1 ∧ wordPlus (s.pc + 1) (1#9).toInt = 0xFE00) ∧
    (let s : State := reg (start 0x6240) 1 0xFE00
     s.Fetches ∧ s.consoleIn = [] ∧ decode (s.word s.pc) = .ldr 1 1 0 ∧ wordPlus s.regs[(1 : Reg)] (0#6).toInt = 0xFE00) ∧
    (let s : State := { withWords [(0xFDFE, 0xB201)] with pc := 0xFDFE }
     s.Fetches ∧ s.consoleIn = [] ∧ decode (s.word s.pc) = .sti 1 1 ∧ wordPlus (s.pc + 1) (1#9).toInt = 0xFE00) :=
  ⟨⟨⟨rfl, by decide⟩, by decide, by decide, by decide, by decide⟩, ⟨⟨rfl, by decide⟩, by decide, by decide, by decide⟩,
    ⟨⟨rfl, by decide⟩, by decide, by decide, by decide⟩⟩

/-- LDI, by its pointer's address and by its pointer. -/
theorem witness_StepWaits_ldi :
    (let s : State := { withWords [(0xFDFE, 0xA201)] with pc := 0xFDFE }
     s.Fetches ∧ s.consoleIn = [] ∧ decode (s.word s.pc) = .ldi 1 1 ∧ wordPlus (s.pc + 1) (1#9).toInt = 0xFE00) ∧
    (let s : State := start 0xA201 [(0x3002, 0xFE00)]
     s.Fetches ∧ s.consoleIn = [] ∧ decode (s.word s.pc) = .ldi 1 1 ∧ s.word (wordPlus (s.pc + 1) (1#9).toInt) = 0xFE00) :=
  ⟨⟨⟨rfl, by decide⟩, by decide, by decide, by decide⟩, ⟨⟨rfl, by decide⟩, by decide, by decide, by decide⟩⟩

/-- PUTS with one word before KBSR, PUTSP right at it. -/
theorem witness_StepWaits_strings :
    (let s : State := reg (start 0xF022 [(0xFDFF, 0x0041)]) 0 0xFDFF
     s.Fetches ∧ s.consoleIn = [] ∧ decode (s.word s.pc) = .puts ∧
     (∀ j, j < 1 → s.word (s.regs[(0 : Reg)] + BitVec.ofNat 16 j) ≠ 0x0000 ∧ s.regs[(0 : Reg)] + BitVec.ofNat 16 j ≠ 0xFE00) ∧
     s.regs[(0 : Reg)] + BitVec.ofNat 16 1 = 0xFE00) ∧
    (let s : State := reg (start 0xF024) 0 0xFE00
     s.Fetches ∧ s.consoleIn = [] ∧ decode (s.word s.pc) = .putsp ∧ s.regs[(0 : Reg)] + BitVec.ofNat 16 0 = 0xFE00) :=
  ⟨⟨⟨rfl, by decide⟩, by decide, by decide, by decide, by decide⟩, ⟨⟨rfl, by decide⟩, by decide, by decide, by decide⟩⟩

theorem witness_NextFetchSeesTheStore :
    let s : State := reg (start 0x3000) 0 0xF025
    s.mem.wf ∧ s.Fetches ∧ s.pc ≠ 0xFE00 ∧ s.pc + 1 ≠ 0xFE00 ∧ s.pc + 1 ≠ 0xFFFF ∧ decode (s.word s.pc) = .st 0 0 :=
  ⟨by decide, ⟨rfl, by decide⟩, by decide, by decide, by decide, by decide⟩

/-- The largest image the spec admits (P5), a word inside it, an address below it, and one above a smaller image. -/
theorem witness_BootPlacesTheImage :
    OpenReset.default.mem.wf ∧ (0xFFFC#16).toNat + ([0x2002, 0x3002, 0x0E01, 0xF025] : List Word).length ≤ 65536 ∧
    3 < ([0x2002, 0x3002, 0x0E01, 0xF025] : List Word).length ∧ (0xFFFB#16).toNat < (0xFFFC#16).toNat ∧
    (0x3000#16).toNat + ([0x1025] : List Word).length ≤ (0x3001#16).toNat := by decide

theorem witness_MalformedImagesMakeNoCore :
    ([] : List Byte).length < 2 ∧ ([0x30] : List Byte).length < 2 ∧
    2 ≤ ([0x30, 0x00, 0x10] : List Byte).length ∧ ([0x30, 0x00, 0x10] : List Byte).length % 2 = 1 := by decide

theorem witness_ImagePastTheTopIsRefused : 65536 < (0xFFFF#16).toNat + ([0xF025, 0xF025] : List Word).length := by decide

theorem witness_RoundTripExampleGivesFive : OpenReset.default.mem.wf ∧ OpenReset.default.gpr[(0 : Reg)] = 0 := by decide

theorem witness_StepKeepsTheInvariant : (start 0x3000).Inv ∧ ∃ t, step (start 0x3000) = .next t :=
  ⟨⟨by decide, fun h => by cases h⟩, _, rfl⟩

theorem witness_LaterLinesDoNotMatter :
    (start 0xF020 [] [[0x61]]).mem.wf ∧ ∃ t, step (start 0xF020 [] [[0x61]]) = .next t ∧ t ≠ start 0xF020 [] [[0x61]] :=
  ⟨by decide, _, rfl, by decide⟩

/-- The two program counters where the word is placed elsewhere, and a run that has ended. -/
theorem witness_PlacedWordIsRunNext :
    State.reset.mem.wf ∧ State.fetchPlace { State.reset with pc := 0xFFFF } = 0x3000 ∧
    State.fetchPlace { State.reset with pc := 0xFE00 } = 0x3000 ∧ State.fetchPlace { State.reset with run := .halted } = 0x3000 := by decide

end Sys2Proof.Tests
end

section
/-! SUPPORT. More console lines behind those to come: what reads, string loops and instructions do with them (00_scope.md R9,
20_memory.md R47), up to the statement about a whole step. -/

namespace Sys2Proof.Machine

/-! ## The state with more lines to come -/

/-- The state with more lines behind those still to come. -/
def State.withLater (later : List Line) (s : State) : State := { s with consoleIn := s.consoleIn ++ later }

@[simp] theorem State.withLater_regs (later : List Line) (s : State) : (s.withLater later).regs = s.regs := rfl
@[simp] theorem State.withLater_pc (later : List Line) (s : State) : (s.withLater later).pc = s.pc := rfl
@[simp] theorem State.withLater_cond (later : List Line) (s : State) : (s.withLater later).cond = s.cond := rfl
@[simp] theorem State.withLater_run (later : List Line) (s : State) : (s.withLater later).run = s.run := rfl
@[simp] theorem State.withLater_consoleIn (later : List Line) (s : State) :
    (s.withLater later).consoleIn = s.consoleIn ++ later := rfl
@[simp] theorem State.withLater_pcRelative {n : Nat} (later : List Line) (s : State) (off : BitVec n) :
    (s.withLater later).pcRelative off = s.pcRelative off := rfl
@[simp] theorem State.withLater_setPc (later : List Line) (s : State) (a : Word) :
    (s.withLater later).setPc a = (s.setPc a).withLater later := rfl
@[simp] theorem State.withLater_setRegCC (later : List Line) (s : State) (r : Reg) (v : Word) :
    (s.withLater later).setRegCC r v = (s.setRegCC r v).withLater later := rfl
@[simp] theorem State.withLater_memWrite (later : List Line) (s : State) (a v : Word) :
    (s.withLater later).memWrite a v = (s.memWrite a v).withLater later := rfl
@[simp] theorem State.withLater_consoleWrite (later : List Line) (s : State) (l : List Word) :
    (s.withLater later).consoleWrite l = (s.consoleWrite l).withLater later := rfl

/-! ## Reads and the string loop -/

/-- A read that does not wait takes the first line, so the lines behind it stay. -/
theorem State.memRead_withLater {s t : State} {a v : Word} (later : List Line) (h : s.memRead a = some (v, t)) :
    (s.withLater later).memRead a = some (v, t.withLater later) := by
  rcases State.memRead_cases h with ⟨ha, rfl, rfl⟩ | ⟨rfl, rest, hc, rfl, rfl⟩ | ⟨rfl, c, cs, rest, hc, rfl, rfl⟩
  · exact State.memRead_plain _ a ha
  · exact State.memRead_kbsr_idle _ (rest ++ later) (by simp [hc])
  · exact State.memRead_kbsr_ready _ c cs (rest ++ later) (by simp [hc])

/-- A string loop that ends does the same, under the same bound. -/
theorem State.scanString_withLater {codes : Word → List Word} {fuel : Nat} {a : Word} {s t : State} (later : List Line)
    (h : State.scanString codes fuel a s = some t) :
    State.scanString codes fuel a (s.withLater later) = some (t.withLater later) := by
  induction fuel generalizing a s with
  | zero => cases h
  | succ fuel ih =>
    unfold State.scanString at h ⊢
    split at h
    · cases h
    · rename_i w u hm
      rw [State.memRead_withLater later hm]
      split at h
      · rename_i hw; cases h; simp [hw]
      · rename_i hw; simpa [hw] using ih h

/-- The bound of a string loop only grows with more lines to come. -/
theorem State.scanFuel_le_withLater (later : List Line) (s : State) : s.scanFuel ≤ (s.withLater later).scanFuel := by
  simp only [State.scanFuel, State.withLater_consoleIn, List.length_append]
  exact Nat.mul_le_mul_left _ (by omega)

/-! ## Instructions -/

/-- Wherever the operation gives a next state, it has gone back to wait, or it does the same with more lines to come. -/
def WaitsOrIgnoresLater (op : State → Answer) : Prop :=
  ∀ (s t : State) (later : List Line), op s = .next t →
    t = s.setPc (s.pc - 1#16) ∨ op (s.withLater later) = .next (t.withLater later)

/-- An operation that always completes need only commute with the placing of later lines. -/
theorem WaitsOrIgnoresLater.of_next (f : State → State)
    (hf : ∀ later s, f (s.withLater later) = (f s).withLater later) : WaitsOrIgnoresLater (fun s => .next (f s)) := by
  intro s t later h
  cases h
  exact .inr (congrArg _ (hf later s))

theorem execBr_waitsOrIgnoresLater (n z p : Bool) (off9 : BitVec 9) : WaitsOrIgnoresLater (execBr n z p off9) := by
  intro s t later h
  unfold execBr at h ⊢
  split_ifs at h with hb
  · cases h; exact .inr (by simp [hb])
  · cases h; exact .inr (by simp [hb])

theorem loadInto_waitsOrIgnoresLater (dr : Reg) (ea : State → Word)
    (hea : ∀ later s, ea (State.withLater later s) = ea s) : WaitsOrIgnoresLater (fun s => s.loadInto dr (ea s)) := by
  intro s t later h
  rcases State.loadInto_next h with ⟨-, hw⟩ | ⟨v, u, hm, rfl⟩
  · exact .inl hw
  · exact .inr (by simp [State.loadInto, hea, State.memRead_withLater later hm])

theorem execLdi_waitsOrIgnoresLater (dr : Reg) (off9 : BitVec 9) : WaitsOrIgnoresLater (execLdi dr off9) := by
  intro s t later h
  rcases execLdi_next h with hw | ⟨ptr, u, v, x, hp, hv, rfl⟩
  · exact .inl hw
  · exact .inr (by simp [execLdi, State.memRead_withLater later hp, State.memRead_withLater later hv])

theorem execSti_waitsOrIgnoresLater (sr : Reg) (off9 : BitVec 9) : WaitsOrIgnoresLater (execSti sr off9) := by
  intro s t later h
  rcases execSti_next h with hw | ⟨ptr, u, hp, rfl⟩
  · exact .inl hw
  · exact .inr (by simp [execSti, State.memRead_withLater later hp])

theorem readCharacter_waitsOrIgnoresLater (echo : Word → List Word) : WaitsOrIgnoresLater (State.readCharacter echo) := by
  intro s t later h
  rcases State.readCharacter_next h with ⟨-, hw⟩ | ⟨c, cs, rest, hc, rfl⟩
  · exact .inl hw
  · refine .inr ?_
    simp only [State.readCharacter, State.consoleReadLine, State.withLater_consoleIn, hc, List.cons_append]
    rfl

theorem writeString_waitsOrIgnoresLater (codes : Word → List Word) : WaitsOrIgnoresLater (State.writeString codes) := by
  intro s t later h
  rcases State.writeString_next h with ⟨-, hw⟩ | hs
  · exact .inl hw
  · refine .inr ?_
    have hl : State.scanString codes (s.withLater later).scanFuel ((s.withLater later).reg dataReg) (s.withLater later) =
        some (t.withLater later) :=
      State.scanString_mono (s.scanFuel_le_withLater later) (State.scanString_withLater later hs)
    rw [State.writeString, hl]

theorem execTrap_waitsOrIgnoresLater (vect8 : BitVec 8) : WaitsOrIgnoresLater (execTrap vect8) := by
  unfold execTrap
  split_ifs
  · exact readCharacter_waitsOrIgnoresLater _
  · exact .of_next _ fun _ _ => rfl
  · exact writeString_waitsOrIgnoresLater _
  · exact readCharacter_waitsOrIgnoresLater _
  · exact writeString_waitsOrIgnoresLater _
  · exact .of_next _ fun _ _ => rfl
  · exact .of_next _ fun _ _ => rfl

/-- Every instruction goes back to wait for a line, or does the same with more lines behind those to come. -/
theorem exec_waitsOrIgnoresLater (i : Instr) : WaitsOrIgnoresLater (exec i) := by
  cases i with
  | br n z p off9 => exact execBr_waitsOrIgnoresLater n z p off9
  | ld dr off9 => exact loadInto_waitsOrIgnoresLater dr (·.pcRelative off9) fun _ _ => rfl
  | ldr dr baseR off6 => exact loadInto_waitsOrIgnoresLater dr (·.basePlus baseR off6) fun _ _ => rfl
  | ldi dr off9 => exact execLdi_waitsOrIgnoresLater dr off9
  | sti sr off9 => exact execSti_waitsOrIgnoresLater sr off9
  | trap vect8 => exact execTrap_waitsOrIgnoresLater vect8
  | getc => exact readCharacter_waitsOrIgnoresLater _
  | inEcho => exact readCharacter_waitsOrIgnoresLater _
  | puts => exact writeString_waitsOrIgnoresLater _
  | putsp => exact writeString_waitsOrIgnoresLater _
  | addReg | addImm | andReg | andImm | not | lea | st | str | jsr | jsrr | jmp | rti | res | out | halt =>
    exact .of_next _ fun _ _ => rfl

/-! ## The step -/

/-- A word fetched from KBSR is a branch that is never taken or RTI, so its execution changes nothing (R71). -/
theorem exec_kbsr_word {s t : State} {w : Word} (h : s.memRead Config.kbsr = some (w, t)) (hw : s.mem.wf) (u : State) :
    exec (decode w) u = .next u := by
  rcases State.memRead_kbsr_value h hw with rfl | rfl
  · have hd : decode 0x0000 = .br false false false 0 := by decide
    have hb : branchTaken false false false u.cond = false := by cases u.cond <;> decide
    rw [hd, exec, execBr, hb]; rfl
  · have hd : decode 0x8000 = .rti := by decide
    rw [hd]; rfl

/-- A step that fetches runs the fetched instruction in the state after the increment (R71 to R73). -/
theorem step_of_memRead {s u : State} {w : Word} (hr : s.run = .running) (hp : s.pc ≠ Config.topAddress)
    (hm : s.memRead s.pc = some (w, u)) : step s = exec (decode w) (u.setPc (u.pc + 1#16)) := by
  simp [step, State.loopGuard, State.fetch, hr, hp, hm]

/-- Settles O58: a step that changes the state either ends the run at the top address, or has completed its fetch and its
instruction. An instruction that goes back to wait changes nothing, because its fetch was no poll: a poll gives a word whose
execution does not wait. -/
theorem laterLinesDoNotMatter : Obligations.LaterLinesDoNotMatter := by
  intro s t later hwf hstep hne
  change step (s.withLater later) = .next (t.withLater later)
  obtain ⟨hr, ⟨hp, rfl⟩ | ⟨-, -, rfl⟩ | ⟨hp, w, u, hm, he⟩⟩ := step_next hstep
  · simp [step, State.loopGuard, hr, hp]; rfl
  · exact absurd rfl hne
  · refine (step_of_memRead (s := s.withLater later) hr hp (State.memRead_withLater later hm)).trans ?_
    rcases State.memRead_keeps hm with ⟨-, -, -, -, -, ⟨-, rfl⟩ | ⟨hk, -⟩⟩
    · rcases exec_waitsOrIgnoresLater _ _ _ later he with hw | hl
      · exact absurd (by simp [hw, State.setPc]) hne
      · exact hl
    · rw [hk] at hm
      rw [exec_kbsr_word hm hwf] at he ⊢
      cases he; rfl

end Sys2Proof.Machine
end

section
/-! SUPPORT. Sign extension in the terms of R7: the two equations of the rule and the law they satisfy. -/

namespace Sys2Proof.Machine

/-- The ones above a field's width as a number (R7). -/
theorem ones_shiftLeft {n : Nat} (h : n ≤ 16) : 0xFFFF#16 <<< n = BitVec.ofNat 16 (65536 - 2 ^ n) := by
  interval_cases n <;> decide

/-- A field with a clear top bit keeps its number (R7). -/
theorem sext_of_lt {n : Nat} (f : BitVec n) (h : f.toNat < 2 ^ (n - 1)) : sext f = BitVec.ofNat 16 f.toNat := by
  have hb : f.getLsbD (n - 1) = false := by
    rw [← BitVec.msb_eq_getLsbD_last, BitVec.msb_eq_decide]; simpa using h
  simp [sext, hb]

/-- A field with a set top bit is ORed with ones above its width (R7). -/
theorem sext_of_le {n : Nat} (f : BitVec n) (hn : n ≤ 16) (h : 2 ^ (n - 1) ≤ f.toNat) :
    sext f = BitVec.ofNat 16 f.toNat ||| BitVec.ofNat 16 (65536 - 2 ^ n) := by
  have hb : f.getLsbD (n - 1) = true := by
    rw [← BitVec.msb_eq_getLsbD_last, BitVec.msb_eq_decide]; simpa using h
  simp [sext, hb, ones_shiftLeft hn]

/-- Sign extension keeps the signed value. -/
theorem sext_toInt {n : Nat} (f : BitVec n) (h1 : 1 ≤ n) (h16 : n ≤ 16) : (sext f).toInt = f.toInt := by
  rw [sext_eq_signExtend f h1, BitVec.toInt_signExtend_of_le h16]

/-- The number of a sign-extended field with a set top bit: the signed value it keeps is `f - 2^n`. -/
theorem sext_toNat_of_le {n : Nat} (f : BitVec n) (h1 : 1 ≤ n) (h16 : n ≤ 16) (h : 2 ^ (n - 1) ≤ f.toNat) :
    (sext f).toNat = (f.toNat + 65536 - 2 ^ n) % 65536 := by
  have hs := sext_toInt f h1 h16
  have hp : 2 * 2 ^ (n - 1) = 2 ^ n := by rw [← pow_succ', Nat.sub_add_cancel h1]
  have hle : 2 ^ n ≤ 2 ^ 16 := Nat.pow_le_pow_right (by decide) h16
  have hf := f.isLt
  have hw := (sext f).isLt
  rw [BitVec.toInt_eq_toNat_cond, BitVec.toInt_eq_toNat_cond, if_neg (show ¬ 2 * f.toNat < 2 ^ n by omega)] at hs
  generalize 2 ^ n = p at hs hp hle hf ⊢
  split_ifs at hs
  · omega
  · omega

/-- Settles O6: the two equations by the top bit, the equivalent sum from the signed value, and the signed value. -/
theorem signExtensionKeepsTheSignedValue : Obligations.SignExtensionKeepsTheSignedValue := fun _ f h1 h16 =>
  ⟨sext_of_lt f, fun h => ⟨sext_of_le f h16 h, sext_toNat_of_le f h1 h16 h⟩, sext_toInt f h1 h16⟩

end Sys2Proof.Machine
end

section
/-! SUPPORT. The invariant and the frames of an instruction: whatever every operation of an instruction keeps, the instruction keeps
(10_state.md R11, R17, R22, R24), and what follows for a whole step. -/

namespace Sys2Proof.Machine

/-! ## What every operation of an instruction keeps -/

/-- Every operation that the instruction may use keeps `P`: a register or the condition code is written only where the tables of R11
and R17 say so, and no instruction ends a run in LoopExit (R74, R76). An operation that writes no field `P` speaks of keeps it by
default. -/
structure Kept (i : Instr) (P : State → Prop) : Prop where
  memRead : ∀ {s t a v}, P s → s.memRead a = some (v, t) → P t
  memWrite : ∀ {s} a v, P s → P (s.memWrite a v) := by exact fun _ _ hs => hs
  setPc : ∀ {s} a, P s → P (s.setPc a) := by exact fun _ hs => hs
  setReg : ∀ {s r} v, writtenReg i = some r → P s → P (s.setReg r v) := by exact fun _ _ hs => hs
  setcc : ∀ {s r}, condReg i = some r → P s → P (s.setcc r) := by exact fun _ hs => hs
  takeLine : ∀ {s line rest}, s.consoleIn = line :: rest → P s → P { s with consoleIn := rest } := by exact fun _ hs => hs
  consoleWrite : ∀ {s} l, P s → P (s.consoleWrite l) := by exact fun _ hs => hs
  stop : ∀ {s o}, o ≠ .loopExit → P s → P (s.stop o) := by exact fun _ hs => hs

section

variable {i : Instr} {P : State → Prop} {s t : State}

theorem Kept.setRegCC (K : Kept i P) {r : Reg} (v : Word) (hw : writtenReg i = some r) (hc : condReg i = some r) (hs : P s) :
    P (s.setRegCC r v) :=
  K.setcc hc (K.setReg v hw hs)

theorem Kept.loadInto (K : Kept i P) {r : Reg} {ea : Word} (hw : writtenReg i = some r) (hc : condReg i = some r) (hs : P s)
    (h : s.loadInto r ea = .next t) : P t := by
  rcases State.loadInto_next h with ⟨-, rfl⟩ | ⟨v, u, hm, rfl⟩
  · exact K.setPc _ hs
  · exact K.setRegCC v hw hc (K.memRead hs hm)

theorem Kept.readCharacter (K : Kept i P) {echo : Word → List Word} (hw : writtenReg i = some dataReg) (hs : P s)
    (h : s.readCharacter echo = .next t) : P t := by
  rcases State.readCharacter_next h with ⟨-, rfl⟩ | ⟨c, cs, rest, hc, rfl⟩
  · exact K.setPc _ hs
  · exact K.consoleWrite (echo c) (K.setReg c hw (K.takeLine hc hs))

theorem Kept.writeString (K : Kept i P) {codes : Word → List Word} (hs : P s) (h : s.writeString codes = .next t) : P t := by
  rcases State.writeString_next h with ⟨-, rfl⟩ | hscan
  · exact K.setPc _ hs
  · exact State.scanString_keeps P codes (fun _ _ _ _ => K.memRead) (fun _ => K.consoleWrite) _ _ _ _ hs hscan

theorem Kept.trap {v : BitVec 8} (K : Kept (.trap v) P) (hs : P s) (h : execTrap v s = .next t) : P t := by
  rcases execTrap_cases v s with ⟨hv, he⟩ | ⟨-, he⟩ | ⟨-, he⟩ | ⟨hv, he⟩ | ⟨-, he⟩ | ⟨-, he⟩ | ⟨-, he⟩ <;> rw [he] at h
  · exact K.readCharacter (by simp [writtenReg, hv, dataReg]) hs h
  · cases h; exact K.consoleWrite _ hs
  · exact K.writeString hs h
  · exact K.readCharacter (by simp [writtenReg, hv, dataReg]) hs h
  · exact K.writeString hs h
  · cases h; exact K.stop (by decide) (K.consoleWrite _ hs)
  · cases h; exact K.stop (by decide) hs

/-- What every operation of an instruction keeps, the instruction keeps. -/
theorem Kept.exec (K : Kept i P) (hs : P s) (h : exec i s = .next t) : P t := by
  cases i with
  | addReg | addImm | andReg | andImm | not | lea => cases h; exact K.setRegCC _ rfl rfl hs
  | ld | ldr => exact K.loadInto rfl rfl hs h
  | ldi dr off9 =>
    rcases execLdi_next h with rfl | ⟨ptr, u, v, x, hp, hv, rfl⟩
    · exact K.setPc _ hs
    · exact K.setRegCC v rfl rfl (K.memRead (K.memRead hs hp) hv)
  | st | str => cases h; exact K.memWrite _ _ hs
  | sti sr off9 =>
    rcases execSti_next h with rfl | ⟨ptr, u, hp, rfl⟩
    · exact K.setPc _ hs
    · exact K.memWrite _ _ (K.memRead hs hp)
  | br n z p off9 =>
    change execBr n z p off9 s = _ at h
    unfold execBr at h
    split_ifs at h <;> cases h
    · exact K.setPc _ hs
    · exact hs
  | jmp => cases h; exact K.setPc _ hs
  | jsr | jsrr => cases h; exact K.setPc _ (K.setReg _ rfl hs)
  | rti | res => cases h; exact hs
  | getc | inEcho => exact K.readCharacter rfl hs h
  | puts | putsp => exact K.writeString hs h
  | out => cases h; exact K.consoleWrite _ hs
  | halt => cases h; exact K.stop (by decide) (K.consoleWrite _ hs)
  | trap v => exact K.trap hs h

end

/-! ## The invariant -/

/-- Canonical memory in a run that has not ended in LoopExit is kept by every instruction. -/
theorem kept_wf_and_noLoopExit (i : Instr) : Kept i (fun u => u.mem.wf ∧ u.run ≠ .loopExit) where
  memRead := fun ⟨hw, hr⟩ hm => by
    obtain ⟨-, -, -, hrun, -⟩ := State.memRead_keeps hm
    exact ⟨State.memRead_wf hm hw, hrun ▸ hr⟩
  memWrite := fun a v ⟨hw, hr⟩ => ⟨State.setWord_wf _ a v hw, hr⟩
  stop := fun ho ⟨hw, _⟩ => ⟨hw, ho⟩

/-- Settles O56: LoopExit is entered only by the guard at the top address; the fetch and the instruction keep memory canonical and
never enter it. -/
theorem stepKeepsTheInvariant : Obligations.StepKeepsTheInvariant := by
  intro s t hinv hstep
  obtain ⟨hrun, ⟨hp, rfl⟩ | ⟨-, -, rfl⟩ | ⟨-, w, u, hm, he⟩⟩ := step_next hstep
  · exact ⟨hinv.1, fun _ => hp⟩
  · exact hinv
  · have K := kept_wf_and_noLoopExit (decode w)
    have hs : s.mem.wf ∧ s.run ≠ .loopExit := ⟨hinv.1, by simp [hrun]⟩
    obtain ⟨hwf, hne⟩ := K.exec (K.setPc _ (K.memRead hs hm)) he
    exact ⟨hwf, fun hl => absurd hl hne⟩

/-! ## The registers and the condition code -/

/-- A register that the table of R11 does not name keeps its value. -/
theorem kept_register {i : Instr} {r : Reg} (h : writtenReg i ≠ some r) (x : Word) : Kept i (fun u => u.regs[r] = x) where
  memRead := fun hs hm => by
    obtain ⟨hregs, -⟩ := State.memRead_keeps hm
    rwa [hregs]
  setReg := fun {s q} v hq hs => by
    have hne : q ≠ r := by rintro rfl; exact h hq
    exact (regs_set_get _ _ _ v).trans ((if_neg hne).trans hs)

/-- Settles O38: a register the table does not name is kept by every operation of the instruction. -/
theorem onlyTheTableRegisterIsWritten : Obligations.OnlyTheTableRegisterIsWritten := by
  intro i s t h r hr
  by_contra hw
  exact hr ((kept_register hw s.regs[r]).exec rfl h)

/-- An instruction without a condition destination keeps the condition code (R17). -/
theorem kept_cond {i : Instr} (h : condReg i = none) (c : Cond) : Kept i (fun u => u.cond = c) where
  memRead := fun hs hm => by
    obtain ⟨-, -, hcond, -⟩ := State.memRead_keeps hm
    rwa [hcond]
  setcc := fun hr => by simp [h] at hr

/-- One of the seven instructions of R17 waits, or ends by writing its destination and the condition of the word written. -/
theorem exec_condReg_next {i : Instr} {s t : State} {dr : Reg} (hi : condReg i = some dr) (h : exec i s = .next t) :
    t = s.setPc (s.pc - 1#16) ∨ ∃ u v, t = State.setRegCC u dr v := by
  cases i with
  | addReg | addImm | andReg | andImm | not | lea => cases hi; cases h; exact .inr ⟨_, _, rfl⟩
  | ld | ldr =>
    cases hi
    rcases State.loadInto_next h with ⟨-, hw⟩ | ⟨v, u, -, hu⟩
    · exact .inl hw
    · exact .inr ⟨u, v, hu⟩
  | ldi =>
    cases hi
    rcases execLdi_next h with hw | ⟨-, -, v, x, -, -, hx⟩
    · exact .inl hw
    · exact .inr ⟨x, v, hx⟩
  | br | st | jsr | jsrr | str | rti | sti | jmp | res | trap | getc | out | puts | inEcho | putsp | halt => cases hi

/-- Settles O9: every operation of the other instructions keeps the condition code, and the seven write it last, from the word they
have put into the destination; a wait moves the program counter. -/
theorem onlySevenInstructionsWriteTheCondition : Obligations.OnlySevenInstructionsWriteTheCondition := by
  intro i s t h
  refine ⟨fun hi => (kept_cond hi s.cond).exec rfl h, fun dr hi hpc => ?_⟩
  rcases exec_condReg_next hi h with rfl | ⟨u, v, rfl⟩
  · have hback : s.pc - 1#16 = s.pc := hpc
    bv_omega
  · simp [condOf_eq_signCond]

/-! ## The console input -/

/-- A read leaves an end of the lines to come (R24, R33). -/
theorem State.memRead_consoleIn_suffix {s t : State} {a v : Word} (h : s.memRead a = some (v, t)) :
    t.consoleIn <:+ s.consoleIn := by
  obtain ⟨-, -, -, -, -, ⟨-, rfl⟩ | ⟨-, line, hl⟩⟩ := State.memRead_keeps h
  · exact List.suffix_rfl
  · exact hl ▸ List.suffix_cons line _

/-- Lines are taken from the front alone. -/
theorem kept_consoleIn_suffix (i : Instr) (lines : List Line) : Kept i (fun u => u.consoleIn <:+ lines) where
  memRead := fun hs hm => (State.memRead_consoleIn_suffix hm).trans hs
  takeLine := fun {s line rest} hl hs => (hl ▸ List.suffix_cons line rest : rest <:+ s.consoleIn).trans hs

/-- A step takes lines from the front of the console input (R24). -/
theorem step_consoleIn_suffix {s t : State} (h : step s = .next t) : t.consoleIn <:+ s.consoleIn := by
  obtain ⟨-, ⟨-, rfl⟩ | ⟨-, -, rfl⟩ | ⟨-, w, u, hm, he⟩⟩ := step_next h
  · exact List.suffix_rfl
  · exact List.suffix_rfl
  · have K := kept_consoleIn_suffix (decode w) s.consoleIn
    exact K.exec (K.setPc _ (State.memRead_consoleIn_suffix hm)) he

end Sys2Proof.Machine
end

section
/-! SUPPORT. What has no influence on a run: a view changes the condition code, the characters of lines behind the first and the
earlier output; reads, string loops, instructions and steps do the same under it (10_state.md R17, R18, R24). -/

namespace Sys2Proof.Machine

/-! ## Views of a state -/

/-- A change of what only BR reads (the condition code) and of what nothing reads: the lines to come behind their first characters,
and the output written so far. -/
structure View where
  /-- The condition code seen. -/
  cond : Cond → Cond
  /-- The line seen. -/
  line : Line → Line
  /-- A line keeps its first character, or stays empty. -/
  line_head : ∀ l, (line l).head? = l.head?
  /-- Output written before the oldest code. -/
  before : List Word

/-- The state under a view. -/
def State.through (V : View) (s : State) : State :=
  { s with cond := V.cond s.cond, consoleIn := s.consoleIn.map V.line, consoleOut := V.before ++ s.consoleOut }

/-- The view with the condition code as it is. -/
def View.keepCond (V : View) : View := { V with cond := id }

theorem View.keepCond_eq {V : View} (h : V.cond = id) : V.keepCond = V := by
  cases V; cases h; rfl

theorem View.line_nil (V : View) : V.line [] = [] := List.head?_eq_none_iff.1 (V.line_head [])

theorem View.line_cons (V : View) (c : Word) (cs : Line) : ∃ ds, V.line (c :: cs) = c :: ds :=
  List.head?_eq_some_iff.1 (V.line_head (c :: cs))

@[simp] theorem State.through_reg (V : View) (s : State) (r : Reg) : (s.through V).reg r = s.reg r := rfl
@[simp] theorem State.through_pc (V : View) (s : State) : (s.through V).pc = s.pc := rfl
@[simp] theorem State.through_cond (V : View) (s : State) : (s.through V).cond = V.cond s.cond := rfl
@[simp] theorem State.through_run (V : View) (s : State) : (s.through V).run = s.run := rfl
@[simp] theorem State.through_consoleIn (V : View) (s : State) : (s.through V).consoleIn = s.consoleIn.map V.line := rfl
@[simp] theorem State.through_loopGuard (V : View) (s : State) : (s.through V).loopGuard = s.loopGuard := rfl
@[simp] theorem State.through_scanFuel (V : View) (s : State) : (s.through V).scanFuel = s.scanFuel := by simp [State.scanFuel]
@[simp] theorem State.through_pcRelative {n : Nat} (V : View) (s : State) (off : BitVec n) :
    (s.through V).pcRelative off = s.pcRelative off := rfl

/-- New output comes behind the output added before. -/
@[simp] theorem State.through_consoleWrite (V : View) (s : State) (l : List Word) :
    (s.through V).consoleWrite l = (s.consoleWrite l).through V := by
  simp [State.through, State.consoleWrite]

/-- A destination write puts its own condition in the place of the one there was (R17). -/
@[simp] theorem State.through_setRegCC (V : View) (s : State) (r : Reg) (v : Word) :
    (s.through V).setRegCC r v = (s.setRegCC r v).through V.keepCond := rfl

/-! ## Reads, the fetch and the string loop -/

/-- A read sees of a line its first character alone. -/
theorem State.memRead_through (V : View) (s : State) (a : Word) :
    (s.through V).memRead a = (s.memRead a).map (Prod.map id (State.through V)) := by
  by_cases ha : a = Config.kbsr
  · subst ha
    match hc : s.consoleIn with
    | [] => rw [s.memRead_kbsr_nil hc, State.memRead_kbsr_nil _ (by simp [hc])]; rfl
    | [] :: rest =>
      rw [s.memRead_kbsr_idle rest hc, State.memRead_kbsr_idle _ (rest.map V.line) (by simp [hc, V.line_nil])]; rfl
    | (c :: cs) :: rest =>
      obtain ⟨ds, hd⟩ := V.line_cons c cs
      rw [s.memRead_kbsr_ready c cs rest hc, State.memRead_kbsr_ready _ c ds (rest.map V.line) (by simp [hc, hd])]; rfl
  · rw [s.memRead_plain a ha, State.memRead_plain _ a ha]; rfl

theorem State.fetch_through (V : View) (s : State) :
    (s.through V).fetch = s.fetch.map (Prod.map id (State.through V)) := by
  simp only [State.fetch, State.through_pc, State.memRead_through]
  cases s.memRead s.pc <;> rfl

theorem State.scanString_through (V : View) (codes : Word → List Word) (fuel : Nat) (a : Word) (s : State) :
    State.scanString codes fuel a (s.through V) = (State.scanString codes fuel a s).map (State.through V) := by
  induction fuel generalizing a s with
  | zero => rfl
  | succ fuel ih =>
    simp only [State.scanString, State.memRead_through]
    match s.memRead a with
    | none => rfl
    | some (w, t) =>
      simp only [Option.map_some, Prod.map, id, State.through_consoleWrite, ih]
      split <;> rfl

/-! ## Instructions -/

/-- The operation answers the same under the view, seen through it; a next state may also have a condition code of its own, which
the view then leaves. -/
def Blind (V : View) (op : State → Answer) : Prop :=
  ∀ s, op (s.through V) = mapNext (State.through V) (op s) ∨ op (s.through V) = mapNext (State.through V.keepCond) (op s)

variable {V : View}

/-- An operation that always completes and writes no condition code. -/
theorem Blind.of_next (f : State → State) (hf : ∀ s, f (s.through V) = (f s).through V) : Blind V (fun s => .next (f s)) :=
  fun s => .inl (congrArg _ (hf s))

/-- An operation that always completes with a destination write (R17). -/
theorem Blind.of_setRegCC (dr : Reg) (v : State → Word) (hv : ∀ s, v (State.through V s) = v s) :
    Blind V (fun s => .next (s.setRegCC dr (v s))) :=
  fun s => .inr (by simp [hv, mapNext])

theorem loadInto_blind (dr : Reg) (ea : State → Word) (hea : ∀ s, ea (State.through V s) = ea s) :
    Blind V (fun s => s.loadInto dr (ea s)) := by
  intro s
  simp only [State.loadInto, State.memRead_through, hea]
  match s.memRead (ea s) with
  | none => exact .inl rfl
  | some (v, t) => exact .inr rfl

theorem execLdi_blind (dr : Reg) (off9 : BitVec 9) : Blind V (execLdi dr off9) := by
  intro s
  simp only [execLdi, State.memRead_through, State.through_pcRelative]
  match s.memRead (s.pcRelative off9) with
  | none => exact .inl rfl
  | some (ptr, t) =>
    simp only [Option.map_some, Prod.map, id, State.memRead_through]
    match t.memRead ptr with
    | none => exact .inl rfl
    | some (v, u) => exact .inr rfl

theorem execSti_blind (sr : Reg) (off9 : BitVec 9) : Blind V (execSti sr off9) := by
  intro s
  simp only [execSti, State.memRead_through, State.through_pcRelative]
  match s.memRead (s.pcRelative off9) with
  | none => exact .inl rfl
  | some (ptr, t) => exact .inl rfl

theorem readCharacter_blind (echo : Word → List Word) : Blind V (State.readCharacter echo) := by
  intro s
  refine .inl ?_
  simp only [State.readCharacter, State.consoleReadLine, State.through_consoleIn]
  match s.consoleIn with
  | [] => rfl
  | [] :: rest => rw [List.map_cons, V.line_nil]; rfl
  | (c :: cs) :: rest =>
    obtain ⟨ds, hd⟩ := V.line_cons c cs
    rw [List.map_cons, hd]
    exact congrArg _ (State.through_consoleWrite V ({ s with consoleIn := rest }.setReg dataReg c) (echo c))

/-- `rw` takes the equation of `writeString` as a proof; unfolding it would have the kernel run the loop on its bound. -/
theorem writeString_blind (codes : Word → List Word) : Blind V (fun s => s.writeString codes) := by
  intro s
  refine .inl ?_
  beta_reduce
  rw [State.writeString, State.writeString, State.through_scanFuel, State.through_reg, State.scanString_through]
  cases State.scanString codes s.scanFuel (s.reg dataReg) s <;> rfl

theorem execOut_blind : Blind V execOut := .of_next _ fun s => State.through_consoleWrite V s _

theorem execHalt_blind : Blind V execHalt :=
  .of_next _ fun s => congrArg (State.stop · .halted) (State.through_consoleWrite V s Config.haltNotice)

theorem execTrap_blind (vect8 : BitVec 8) : Blind V (execTrap vect8) := by
  unfold execTrap
  split_ifs
  · exact readCharacter_blind _
  · exact execOut_blind
  · exact writeString_blind _
  · exact readCharacter_blind _
  · exact writeString_blind _
  · exact execHalt_blind
  · exact .of_next _ fun _ => rfl

/-- BR reads the condition code, and nothing else that a view changes. -/
theorem execBr_blind (hV : V.cond = id) (n z p : Bool) (off9 : BitVec 9) : Blind V (execBr n z p off9) := by
  intro s
  refine .inl ?_
  simp only [execBr, State.through_cond, hV, id]
  split <;> rfl

/-- Every instruction but BR does the same under a view, and BR under a view that leaves the condition code. -/
theorem exec_blind (i : Instr) (hbr : i.opcode = .br → V.cond = id) : Blind V (exec i) := by
  cases i with
  | br n z p off9 => exact execBr_blind (hbr rfl) n z p off9
  | addReg | addImm | andReg | andImm | not | lea => exact .of_setRegCC _ _ fun _ => rfl
  | ld dr off9 => exact loadInto_blind dr (·.pcRelative off9) fun _ => rfl
  | ldr dr baseR off6 => exact loadInto_blind dr (·.basePlus baseR off6) fun _ => rfl
  | ldi dr off9 => exact execLdi_blind dr off9
  | sti sr off9 => exact execSti_blind sr off9
  | st | str | jsr | jsrr | jmp | rti | res => exact .of_next _ fun _ => rfl
  | trap vect8 => exact execTrap_blind vect8
  | getc | inEcho => exact readCharacter_blind _
  | puts | putsp => exact writeString_blind _
  | out => exact execOut_blind
  | halt => exact execHalt_blind

/-! ## The step under a view of the console -/

/-- Under a view that leaves the condition code an instruction answers exactly the same, seen through the view. -/
theorem exec_through (hV : V.cond = id) (i : Instr) (s : State) : exec i (s.through V) = mapNext (State.through V) (exec i s) := by
  have h := exec_blind i (fun _ => hV) s
  rwa [View.keepCond_eq hV, or_self] at h

/-- So does a step, faults and refusals included. -/
theorem step_through (hV : V.cond = id) (s : State) : step (s.through V) = mapNext (State.through V) (step s) := by
  simp only [step, State.through_run, State.through_loopGuard, State.fetch_through]
  split_ifs
  · rfl
  · match s.fetch with
    | none => rfl
    | some (ir, t) => exact exec_through hV (decode ir) t
  · rfl

/-! ## The statements -/

/-- Every line cut to its first character. -/
def View.firstCharacters : View where
  cond := id
  line := List.take 1
  line_head := fun l => by cases l <;> rfl
  before := []

/-- Codes written before everything else. -/
def View.outputAfter (before : List Word) : View where
  cond := id
  line := id
  line_head := fun _ => rfl
  before := before

/-- Another condition code. -/
def View.withCond (c : Cond) : View where
  cond := fun _ => c
  line := id
  line_head := fun _ => rfl
  before := []

theorem State.through_outputAfter (before : List Word) :
    State.through (.outputAfter before) = fun s => { s with consoleOut := before ++ s.consoleOut } := by
  funext s
  simp [State.through, View.outputAfter]

theorem State.through_withCond (c : Cond) (s : State) : s.through (.withCond c) = { s with cond := c } := by
  simp [State.through, View.withCond]

theorem State.through_withCond_keepCond (c : Cond) (s : State) : s.through (View.withCond c).keepCond = s := by
  simp [State.through, View.withCond, View.keepCond]

/-- Settles O57: the cut lines are a view that keeps the first characters and the condition code. -/
theorem onlyFirstCharactersOfLinesMatter : Obligations.OnlyFirstCharactersOfLinesMatter :=
  fun s => step_through (V := .firstCharacters) rfl s

/-- Settles O10: another condition code is a view, which the answer is seen through, or which a condition code of the instruction's
own has replaced. -/
theorem onlyBranchReadsTheCondition : Obligations.OnlyBranchReadsTheCondition := by
  intro i s t c hi h
  rcases exec_blind (V := .withCond c) i (fun hb => absurd hb hi) s with hv | hv <;>
    rw [h, State.through_withCond] at hv
  · exact ⟨c, hv.trans (congrArg _ (State.through_withCond c t))⟩
  · exact ⟨t.cond, hv.trans (congrArg _ (State.through_withCond_keepCond c t))⟩

/-- A mapped answer that is a next state comes from one. -/
theorem mapNext_eq_next {f : State → State} {a : Answer} {t : State} (h : mapNext f a = .next t) :
    ∃ u, a = .next u ∧ f u = t := by
  cases a <;> cases h
  exact ⟨_, rfl, rfl⟩

/-- With any earlier output a step answers what it answers with none, behind that output. -/
theorem step_with_consoleOut (s : State) (before : List Word) :
    step { s with consoleOut := before } =
      mapNext (fun u => { u with consoleOut := before ++ u.consoleOut }) (step { s with consoleOut := [] }) := by
  have h := step_through (V := .outputAfter before) rfl { s with consoleOut := [] }
  simpa only [State.through_outputAfter, List.append_nil] using h

/-- Settles O41: the lines are an end of those there were, and the codes are those the step writes when nothing is written before. -/
theorem consoleOutputIsOnlyAppendedAndNeverRead : Obligations.ConsoleOutputIsOnlyAppendedAndNeverRead := by
  intro s t h
  refine ⟨⟨_, List.suffix_iff_eq_drop.1 (step_consoleIn_suffix h)⟩, ?_⟩
  obtain ⟨u, hu, rfl⟩ := mapNext_eq_next ((step_with_consoleOut s s.consoleOut).symm.trans h)
  exact ⟨u.consoleOut, rfl, fun before => by rw [step_with_consoleOut, hu]; rfl⟩

end Sys2Proof.Machine
end

section
/-! SUPPORT. The condition code of a register in the terms of the word's number (10_state.md R16). -/

namespace Sys2Proof.Machine

/-- The three ranges of a word's number (R16). -/
theorem condOf_eq_range (v : Word) : condOf v = if v.toNat = 0 then .z else if 0x8000 ≤ v.toNat then .n else .p := by
  have hz : v = 0#16 ↔ v.toNat = 0 := BitVec.toNat_inj.symm
  have hn : v.getLsbD 15 = decide (0x8000 ≤ v.toNat) := by
    rw [← BitVec.msb_eq_getLsbD_last, BitVec.msb_eq_decide]
  simp only [condOf, hz, hn, decide_eq_true_eq]

theorem condOf_eq_z (v : Word) : condOf v = .z ↔ v.toNat = 0 := by
  rw [condOf_eq_range]
  split_ifs <;> simp [*]

theorem condOf_eq_n (v : Word) : condOf v = .n ↔ 0x8000 ≤ v.toNat := by
  rw [condOf_eq_range]
  split_ifs <;> simp <;> omega

theorem condOf_eq_p (v : Word) : condOf v = .p ↔ 1 ≤ v.toNat ∧ v.toNat ≤ 0x7FFF := by
  rw [condOf_eq_range]
  split_ifs <;> simp <;> omega

/-- Settles O8: the register's condition in the model's two readings, by its sign and by the ranges of its number. -/
theorem setccFollowsTheRegister : Obligations.SetccFollowsTheRegister := by
  intro s r
  simp only [← condOf_eq_signCond, State.setcc_cond]
  exact ⟨rfl, condOf_eq_z _, condOf_eq_n _, condOf_eq_p _⟩

end Sys2Proof.Machine
end

section
/-! SUPPORT. Reads and writes of memory in the words of 20_memory.md: what a poll returns (R33) and where memory and the lines to come can
differ after an instruction (R33, R39). -/

namespace Sys2Proof.Machine

/-! ## Single reads and writes -/

/-- A read of KBSR with an empty line to come returns the idle status word (R33). -/
theorem State.memRead_kbsr_of_empty {s : State} {rest : List Line} (hw : s.mem.wf) (hc : s.consoleIn = [] :: rest) :
    s.memRead Config.kbsr = some (0x0000, s.polledIdle rest) := by
  rw [s.memRead_kbsr_idle rest hc, s.polledIdle_kbsr rest hw]

/-- A read of KBSR with a character to come returns the ready status word (R33). -/
theorem State.memRead_kbsr_of_character {s : State} {c : Word} {cs : Line} {rest : List Line} (hw : s.mem.wf)
    (hc : s.consoleIn = (c :: cs) :: rest) : s.memRead Config.kbsr = some (0x8000, s.polledReady c rest) := by
  rw [s.memRead_kbsr_ready c cs rest hc, s.polledReady_kbsr c rest hw]

/-- Settles O14: a plain read, and the three outcomes of a poll. -/
theorem readPollsTheKeyboardAtKbsrOnly : Obligations.ReadPollsTheKeyboardAtKbsrOnly := by
  intro s hw
  refine ⟨s.memRead_plain, s.memRead_kbsr_nil, fun rest hc => ?_, fun c cs rest hc => ?_⟩
  · exact ⟨s.polledIdle rest, State.memRead_kbsr_of_empty hw hc, rfl, s.polledIdle_kbsr rest hw, s.polledIdle_word rest⟩
  · exact ⟨s.polledReady c rest, State.memRead_kbsr_of_character hw hc, rfl, s.polledReady_kbsr c rest hw,
      s.polledReady_kbdr c rest hw, s.polledReady_word c rest⟩

/-- Settles O16: each poll takes one of the two empty lines, and neither writes KBDR. -/
theorem repeatedIdlePollsReportNotReady : Obligations.RepeatedIdlePollsReportNotReady := by
  intro s rest hw hc
  have h1 : s.memRead Config.kbsr = some (0x0000, s.polledIdle ([] :: rest)) := State.memRead_kbsr_of_empty hw hc
  have h2 : (s.polledIdle ([] :: rest)).memRead Config.kbsr = some (0x0000, (s.polledIdle ([] :: rest)).polledIdle rest) :=
    State.memRead_kbsr_of_empty (State.memRead_wf h1 hw) rfl
  refine ⟨_, _, h1, h2, ?_, rfl⟩
  exact (State.polledIdle_word _ rest Config.kbdr (by decide)).trans (State.polledIdle_word s _ Config.kbdr (by decide))

/-- Settles O15: a write is the plain store of one word, for which a read at the same and at another address are known. -/
theorem writeIsPlainStorageEverywhere : Obligations.WriteIsPlainStorageEverywhere := fun s a v hw =>
  ⟨rfl, s.word_setWord_same a v hw, fun b hb => s.word_setWord_other a b v hb⟩

/-! ## The memory frame of an instruction -/

/-- From `s` to `t` memory may have been written by polls alone: no line is given back, and a word that differs is KBSR or KBDR with a
line taken (R33). -/
structure OnlyPolled (s t : State) : Prop where
  lines_le : t.consoleIn.length ≤ s.consoleIn.length
  word_ne : ∀ {a}, t.word a ≠ s.word a → (a = Config.kbsr ∨ a = Config.kbdr) ∧ t.consoleIn.length < s.consoleIn.length

/-- Same memory, and lines taken at most from the front. -/
theorem OnlyPolled.of_mem_eq {s t : State} (hm : t.mem = s.mem) (hl : t.consoleIn <:+ s.consoleIn) : OnlyPolled s t where
  lines_le := hl.length_le
  word_ne := fun {a} h => absurd (congrArg (Memory.read · a.toNat) hm) h

theorem OnlyPolled.refl (s : State) : OnlyPolled s s := .of_mem_eq rfl List.suffix_rfl

theorem OnlyPolled.trans {s t u : State} (h : OnlyPolled s t) (h' : OnlyPolled t u) : OnlyPolled s u where
  lines_le := h'.lines_le.trans h.lines_le
  word_ne := fun {a} hne => by
    by_cases ha : t.word a = s.word a
    · obtain ⟨hdev, hlt⟩ := h'.word_ne (ha ▸ hne)
      exact ⟨hdev, hlt.trans_le h.lines_le⟩
    · obtain ⟨hdev, hlt⟩ := h.word_ne ha
      exact ⟨hdev, h'.lines_le.trans_lt hlt⟩

/-- A read polls at most (R32). -/
theorem State.memRead_onlyPolled {s t : State} {a v : Word} (h : s.memRead a = some (v, t)) : OnlyPolled s t := by
  obtain ⟨-, -, -, -, -, ⟨-, rfl⟩ | ⟨-, line, hl⟩⟩ := State.memRead_keeps h
  · exact .refl t
  · have hlt : t.consoleIn.length < s.consoleIn.length := by simp [hl]
    refine ⟨hlt.le, fun {b} hb => ⟨?_, hlt⟩⟩
    by_contra hdev
    obtain ⟨hk, hd⟩ := not_or.1 hdev
    exact hb (State.memRead_word h b hk hd)

theorem State.loadInto_onlyPolled {s t : State} {r : Reg} {ea : Word} (h : s.loadInto r ea = .next t) : OnlyPolled s t := by
  rcases State.loadInto_next h with ⟨-, rfl⟩ | ⟨v, u, hm, rfl⟩
  · exact .of_mem_eq rfl List.suffix_rfl
  · exact (State.memRead_onlyPolled hm).trans (.of_mem_eq rfl List.suffix_rfl)

theorem execLdi_onlyPolled {s t : State} {dr : Reg} {off9 : BitVec 9} (h : execLdi dr off9 s = .next t) : OnlyPolled s t := by
  rcases execLdi_next h with rfl | ⟨ptr, u, v, x, hp, hv, rfl⟩
  · exact .of_mem_eq rfl List.suffix_rfl
  · exact ((State.memRead_onlyPolled hp).trans (State.memRead_onlyPolled hv)).trans (.of_mem_eq rfl List.suffix_rfl)

theorem State.readCharacter_onlyPolled {s t : State} {echo : Word → List Word} (h : s.readCharacter echo = .next t) :
    OnlyPolled s t := by
  rcases State.readCharacter_next h with ⟨-, rfl⟩ | ⟨c, cs, rest, hc, rfl⟩
  · exact .of_mem_eq rfl List.suffix_rfl
  · exact .of_mem_eq rfl (hc ▸ List.suffix_cons _ rest)

theorem State.writeString_onlyPolled {s t : State} {codes : Word → List Word} (h : s.writeString codes = .next t) :
    OnlyPolled s t := by
  rcases State.writeString_next h with ⟨-, rfl⟩ | hscan
  · exact .of_mem_eq rfl List.suffix_rfl
  · exact State.scanString_keeps (OnlyPolled s) codes (fun _ _ _ _ hs hm => hs.trans (State.memRead_onlyPolled hm))
      (fun _ _ hs => hs.trans (.of_mem_eq rfl List.suffix_rfl)) _ _ _ _ (.refl s) hscan

theorem execTrap_onlyPolled {v : BitVec 8} {s t : State} (h : execTrap v s = .next t) : OnlyPolled s t := by
  rcases execTrap_cases v s with ⟨-, he⟩ | ⟨-, he⟩ | ⟨-, he⟩ | ⟨-, he⟩ | ⟨-, he⟩ | ⟨-, he⟩ | ⟨-, he⟩ <;> rw [he] at h
  · exact State.readCharacter_onlyPolled h
  · cases h; exact .of_mem_eq rfl List.suffix_rfl
  · exact State.writeString_onlyPolled h
  · exact State.readCharacter_onlyPolled h
  · exact State.writeString_onlyPolled h
  · cases h; exact .of_mem_eq rfl List.suffix_rfl
  · cases h; exact .of_mem_eq rfl List.suffix_rfl

/-- An instruction polls at most, and then stores at most one word, at its own store address (R34, R91, R93, R95). -/
theorem exec_onlyPolled_or_stores {i : Instr} {s t : State} (h : exec i s = .next t) :
    OnlyPolled s t ∨ ∃ u a v, storeAddress s i = some a ∧ OnlyPolled s u ∧ t = u.memWrite a v := by
  cases i with
  | st | str => cases h; exact .inr ⟨s, _, _, rfl, .refl s, rfl⟩
  | sti sr off9 =>
    rcases execSti_next h with rfl | ⟨ptr, u, hp, rfl⟩
    · exact .inl (.of_mem_eq rfl List.suffix_rfl)
    · exact .inr ⟨u, ptr, _, by simp [storeAddress, hp], State.memRead_onlyPolled hp, rfl⟩
  | br n z p off9 =>
    change execBr n z p off9 s = _ at h
    unfold execBr at h
    split_ifs at h <;> cases h <;> exact .inl (.of_mem_eq rfl List.suffix_rfl)
  | addReg | addImm | andReg | andImm | not | lea | jsr | jsrr | jmp | rti | res | out | halt =>
    cases h; exact .inl (.of_mem_eq rfl List.suffix_rfl)
  | ld | ldr => exact .inl (State.loadInto_onlyPolled h)
  | ldi => exact .inl (execLdi_onlyPolled h)
  | getc | inEcho => exact .inl (State.readCharacter_onlyPolled h)
  | puts | putsp => exact .inl (State.writeString_onlyPolled h)
  | trap => exact .inl (execTrap_onlyPolled h)

/-- Settles O39: a word that differs is the one the instruction stored, or a poll wrote it. -/
theorem memoryChangesOnlyByStoreOrPoll : Obligations.MemoryChangesOnlyByStoreOrPoll := by
  intro i s t _ h b hb
  rcases exec_onlyPolled_or_stores h with hp | ⟨u, a, v, ha, hp, rfl⟩
  · exact .inr (hp.word_ne hb)
  · by_cases hba : b = a
    · exact .inl (hba ▸ ha)
    · have hword : (u.memWrite a v).word b = u.word b := u.word_setWord_other a b v hba
      exact .inr (hp.word_ne (hword ▸ hb))

end Sys2Proof.Machine
end

section
/-! SUPPORT. A fetch away from KBSR reads memory as it stands, the last store included (20_memory.md R46, 40_execution_loop.md R72, R73). -/

namespace Sys2Proof.Machine

/-- Away from KBSR a step runs the word at `pc` in the state after the increment (R72, R73). -/
theorem step_of_plain_fetch {s : State} (hf : s.Fetches) (hpc : s.pc ≠ Config.kbsr) :
    step s = exec (decode (s.word s.pc)) (s.setPc (s.pc + 1#16)) :=
  step_of_memRead hf.1 hf.2 (s.memRead_plain s.pc hpc)

/-- A word stored at the program counter is what the step from there executes (R46). -/
theorem step_of_memWrite_pc {s : State} (v : Word) (hw : s.mem.wf) (hf : s.Fetches) (hpc : s.pc ≠ Config.kbsr) :
    step (s.memWrite s.pc v) = exec (decode v) ((s.memWrite s.pc v).setPc (s.pc + 1#16)) := by
  have hword : (s.memWrite s.pc v).word s.pc = v := s.word_setWord_same s.pc v hw
  rw [step_of_plain_fetch (s := s.memWrite s.pc v) hf hpc, State.memWrite_pc, hword]

/-- ST with offset 0 stores at the incremented program counter (R91). -/
theorem execSt_offset_zero (s : State) (sr : Reg) : execSt sr 0 s = .next (s.memWrite s.pc s.regs[sr]) := by
  simp [execSt, State.pcRelative, sext]

/-- Settles O49: ST with offset 0 stores at the incremented program counter, where the next step fetches. -/
theorem nextFetchSeesTheStore : Obligations.NextFetchSeesTheStore := by
  intro s sr hw hf hpc hpc1 htop hi
  have hstore : step s = execSt sr 0 (s.setPc (s.pc + 1#16)) := by rw [step_of_plain_fetch hf hpc, hi]; rfl
  have hnext := step_of_memWrite_pc (s := s.setPc (s.pc + 1#16)) s.regs[sr] hw ⟨hf.1, htop⟩ hpc1
  have hpc2 : s.pc + 1#16 + 1#16 = s.pc + 2 := BitVec.add_assoc _ _ _
  exact ⟨_, hstore.trans (execSt_offset_zero _ sr), rfl, hnext.trans (congrArg (fun a => exec _ (State.setPc _ a)) hpc2)⟩

end Sys2Proof.Machine
end

section
/-! SUPPORT. Waiting for a line (20_memory.md R47, log 7, log 8): when a read, a service and a string loop wait, and that a step whose
instruction waits changes nothing. -/

namespace Sys2Proof.Machine

/-! ## Effective addresses -/

/-- A sign-extended field added to a word moves it by the field's signed value (R36, R97). -/
theorem add_sext_eq_wordPlus {n : Nat} (a : Word) (f : BitVec n) (h1 : 1 ≤ n) (h16 : n ≤ 16) :
    a + sext f = wordPlus a f.toInt := by
  rw [wordPlus, ← sext_toInt f h1 h16, BitVec.ofInt_add, BitVec.ofInt_toInt, BitVec.ofInt_toInt]

/-! ## String loops with no end -/

/-- A bounded string loop that ends is a run of the loop of the rule (R114). -/
theorem State.stringScan_of_scanString {codes : Word → List Word} {fuel : Nat} {a : Word} {s t : State}
    (h : State.scanString codes fuel a s = some t) : StringScan codes a s t := by
  induction fuel generalizing a s with
  | zero => cases h
  | succ fuel ih =>
    unfold State.scanString at h
    split at h
    · cases h
    · rename_i w u hm
      split at h
      · rename_i hw; cases h; exact .stop (hw ▸ hm)
      · rename_i hw; exact .more hm hw (ih h)

/-- A string service whose loop reaches no end waits (R120, log 20). -/
theorem State.writeString_of_no_end {codes : Word → List Word} {s : State}
    (h : ¬ ∃ t, StringScan codes (s.reg dataReg) s t) : s.writeString codes = s.waitForLine := by
  have hnone : State.scanString codes s.scanFuel (s.reg dataReg) s = none :=
    Option.eq_none_iff_forall_ne_some.2 fun t ht => h ⟨t, State.stringScan_of_scanString ht⟩
  rw [State.writeString, hnone]

/-- With no line left, a string that reaches KBSR after `k` non-zero words has no end (R47). -/
theorem no_stringScan_of_reaches_kbsr {codes : Word → List Word} {k : Nat} {a : Word} {s : State} (hc : s.consoleIn = [])
    (hw : ∀ j, j < k → s.word (a + BitVec.ofNat 16 j) ≠ 0x0000 ∧ a + BitVec.ofNat 16 j ≠ Config.kbsr)
    (hk : a + BitVec.ofNat 16 k = Config.kbsr) : ¬ ∃ t, StringScan codes a s t := by
  induction k generalizing a s with
  | zero =>
    have hm : s.memRead a = none := State.memRead_none.2 ⟨by simpa using hk, hc⟩
    rintro ⟨t, ht⟩
    cases ht with
    | stop e => rw [hm] at e; cases e
    | more e _ _ => rw [hm] at e; cases e
  | succ k ih =>
    have hshift (j : Nat) : a + 1#16 + BitVec.ofNat 16 j = a + BitVec.ofNat 16 (j + 1) := by
      rw [BitVec.add_assoc, Nat.add_comm j 1, BitVec.ofNat_add]
    obtain ⟨hne, hplain⟩ : s.word a ≠ 0x0000 ∧ a ≠ Config.kbsr := by simpa using hw 0 k.succ_pos
    have hm := s.memRead_plain a hplain
    rintro ⟨t, ht⟩
    cases ht with
    | stop e => rw [hm] at e; exact hne (congrArg Prod.fst (Option.some.inj e))
    | more e _ hrest =>
      rw [hm] at e
      cases e
      refine ih (a := a + 1#16) (s := s.consoleWrite (codes (s.word a))) hc (fun j hj => ?_) ((hshift k).trans hk) ⟨t, hrest⟩
      rw [hshift j]
      exact hw (j + 1) (by omega)

/-! ## Instructions that wait -/

/-- GETC and IN wait when no line is left (R122). -/
theorem State.readCharacter_of_no_line {s : State} (echo : Word → List Word) (hc : s.consoleIn = []) :
    s.readCharacter echo = s.waitForLine := by
  simp [State.readCharacter, State.consoleReadLine, hc]

/-- A load of KBSR waits when no line is left. -/
theorem State.loadInto_kbsr_of_no_line {s : State} {ea : Word} (dr : Reg) (hc : s.consoleIn = []) (hea : ea = Config.kbsr) :
    s.loadInto dr ea = s.waitForLine := by
  rw [State.loadInto, State.memRead_none.2 ⟨hea, hc⟩]

/-- LDI waits when no line is left and its pointer stands at KBSR, or is KBSR's address. -/
theorem execLdi_of_no_line {s : State} {off9 : BitVec 9} (dr : Reg) (hc : s.consoleIn = [])
    (hea : s.pcRelative off9 = Config.kbsr ∨ s.word (s.pcRelative off9) = Config.kbsr) :
    execLdi dr off9 s = s.waitForLine := by
  by_cases hp : s.pcRelative off9 = Config.kbsr
  · rw [execLdi, State.memRead_none.2 ⟨hp, hc⟩]
  · have hptr : s.word (s.pcRelative off9) = Config.kbsr := hea.resolve_left hp
    simp [execLdi, s.memRead_plain _ hp, State.memRead_none.2 ⟨hptr, hc⟩]

/-- STI waits when no line is left and its pointer stands at KBSR. -/
theorem execSti_of_no_line {s : State} {off9 : BitVec 9} (sr : Reg) (hc : s.consoleIn = [])
    (hea : s.pcRelative off9 = Config.kbsr) : execSti sr off9 s = s.waitForLine := by
  rw [execSti, State.memRead_none.2 ⟨hea, hc⟩]

/-- Settles O35: without a line the services read no character, and a loop that has no end has none under the bound. -/
theorem blockedServicesGoBackToTheInstruction : Obligations.BlockedServicesGoBackToTheInstruction := fun _ =>
  ⟨fun hc => ⟨State.readCharacter_of_no_line _ hc, State.readCharacter_of_no_line _ hc⟩,
    State.writeString_of_no_end, State.writeString_of_no_end⟩

/-! ## Steps -/

/-- A fetch that waits leaves the state as it is (R47). -/
theorem step_of_fetch_waits {s : State} (hf : s.Fetches) (hpc : s.pc = Config.kbsr) (hc : s.consoleIn = []) :
    step s = .next s := by
  obtain ⟨hr, hp⟩ := hf
  simp [step, State.loopGuard, State.fetch, hr, hp, State.memRead_none.2 ⟨hpc, hc⟩]

/-- To wait after the increment is to stay in the state before it. -/
theorem State.waitForLine_setPc_succ (s : State) : (s.setPc (s.pc + 1#16)).waitForLine = .next s := by
  simp [State.waitForLine, State.setPc]

/-- A step whose instruction waits leaves the state as it is (R47, log 7). -/
theorem step_of_exec_waits {s : State} {i : Instr} (hf : s.Fetches) (hpc : s.pc ≠ Config.kbsr) (hi : decode (s.word s.pc) = i)
    (hw : exec i (s.setPc (s.pc + 1#16)) = (s.setPc (s.pc + 1#16)).waitForLine) : step s = .next s := by
  rw [step_of_plain_fetch hf hpc, hi, hw, s.waitForLine_setPc_succ]

/-- Settles O48: the fetch waits, or the instruction does in the state after the increment. -/
theorem stepWaitsWithAllStateUnchanged : Obligations.StepWaitsWithAllStateUnchanged := by
  intro s hf hc
  have hea (a : Word) (off : BitVec 9) : a + sext off = wordPlus a off.toInt :=
    add_sext_eq_wordPlus a off (by decide) (by decide)
  refine ⟨fun hpc => step_of_fetch_waits hf hpc hc, fun hpc => ⟨?getcIn, ?ld, ?ldr, ?ldi, ?sti, ?strings⟩⟩
  case getcIn =>
    rintro (hi | hi) <;> exact step_of_exec_waits hf hpc hi (State.readCharacter_of_no_line _ hc)
  case ld =>
    intro dr off9 hi ha
    exact step_of_exec_waits hf hpc hi (State.loadInto_kbsr_of_no_line dr hc ((hea _ off9).trans ha))
  case ldr =>
    intro dr b off6 hi ha
    exact step_of_exec_waits hf hpc hi (State.loadInto_kbsr_of_no_line dr hc
      ((add_sext_eq_wordPlus _ off6 (by decide) (by decide)).trans ha))
  case ldi =>
    intro dr off9 hi ha
    rw [← hea] at ha
    exact step_of_exec_waits hf hpc hi (execLdi_of_no_line dr hc ha)
  case sti =>
    intro sr off9 hi ha
    exact step_of_exec_waits hf hpc hi (execSti_of_no_line sr hc ((hea _ off9).trans ha))
  case strings =>
    intro k hi hw hk
    have hend (codes : Word → List Word) : ¬ ∃ t, StringScan codes (s.reg dataReg) (s.setPc (s.pc + 1#16)) t :=
      no_stringScan_of_reaches_kbsr hc hw hk
    rcases hi with hi | hi <;> exact step_of_exec_waits hf hpc hi (State.writeString_of_no_end (hend _))

end Sys2Proof.Machine
end

section
/-! SUPPORT. The decoder and the encoder (30_encoding.md R50 to R63): one equation of `decode` for each opcode, the fields of each word
format of R52, the rows of the opcode table, and the statements about them. -/

namespace Sys2Proof

/-! ## Opcodes: the top four bits of a word (R50, R51) -/

/-- The four bits of an opcode (R51). -/
def Opcode.nibble : Opcode → BitVec 4
  | .br => 0x0 | .add => 0x1 | .ld => 0x2 | .st => 0x3 | .jsr => 0x4 | .and => 0x5 | .ldr => 0x6 | .str => 0x7
  | .rti => 0x8 | .not => 0x9 | .ldi => 0xA | .sti => 0xB | .jmp => 0xC | .res => 0xD | .lea => 0xE | .trap => 0xF

/-- The decoder's opcode bits are those of the nibble. -/
theorem opcodeOfBits_of_nibble {w : Word} {o : Opcode} (h : field w 12 4 = o.nibble) :
    opcodeOfBits (w.getLsbD 15) (w.getLsbD 14) (w.getLsbD 13) (w.getLsbD 12) = o :=
  (opcode_bits h).trans (by cases o <;> rfl)

/-- Every four bits are an opcode's (R54). -/
theorem exists_opcode (w : Word) : ∃ o : Opcode, field w 12 4 = o.nibble := by
  have hall : ∀ f : BitVec 4, f = (opcodeOfBits (f.getLsbD 3) (f.getLsbD 2) (f.getLsbD 1) (f.getLsbD 0)).nibble := by decide
  exact ⟨_, hall (field w 12 4)⟩

section
/-! ### One equation of the decoder for each opcode (R62) -/

variable {w : Word}

theorem decode_br (h : field w 12 4 = Opcode.br.nibble) :
    decode w = .br (w.getLsbD 11) (w.getLsbD 10) (w.getLsbD 9) (field w 0 9) := by
  simp only [decode, opcodeOfBits_of_nibble h]

theorem decode_add (h : field w 12 4 = Opcode.add.nibble) :
    decode w = if w.getLsbD 5 then .addImm (regField w 9) (regField w 6) (field w 0 5)
      else .addReg (regField w 9) (regField w 6) (regField w 0) := by
  simp only [decode, opcodeOfBits_of_nibble h]

theorem decode_ld (h : field w 12 4 = Opcode.ld.nibble) : decode w = .ld (regField w 9) (field w 0 9) := by
  simp only [decode, opcodeOfBits_of_nibble h]

theorem decode_st (h : field w 12 4 = Opcode.st.nibble) : decode w = .st (regField w 9) (field w 0 9) := by
  simp only [decode, opcodeOfBits_of_nibble h]

theorem decode_jsr (h : field w 12 4 = Opcode.jsr.nibble) :
    decode w = if w.getLsbD 11 then .jsr (field w 0 11) else .jsrr (regField w 6) := by
  simp only [decode, opcodeOfBits_of_nibble h]

theorem decode_and (h : field w 12 4 = Opcode.and.nibble) :
    decode w = if w.getLsbD 5 then .andImm (regField w 9) (regField w 6) (field w 0 5)
      else .andReg (regField w 9) (regField w 6) (regField w 0) := by
  simp only [decode, opcodeOfBits_of_nibble h]

theorem decode_ldr (h : field w 12 4 = Opcode.ldr.nibble) :
    decode w = .ldr (regField w 9) (regField w 6) (field w 0 6) := by
  simp only [decode, opcodeOfBits_of_nibble h]

theorem decode_str (h : field w 12 4 = Opcode.str.nibble) :
    decode w = .str (regField w 9) (regField w 6) (field w 0 6) := by
  simp only [decode, opcodeOfBits_of_nibble h]

theorem decode_rti (h : field w 12 4 = Opcode.rti.nibble) : decode w = .rti := by
  simp only [decode, opcodeOfBits_of_nibble h]

theorem decode_not (h : field w 12 4 = Opcode.not.nibble) : decode w = .not (regField w 9) (regField w 6) := by
  simp only [decode, opcodeOfBits_of_nibble h]

theorem decode_ldi (h : field w 12 4 = Opcode.ldi.nibble) : decode w = .ldi (regField w 9) (field w 0 9) := by
  simp only [decode, opcodeOfBits_of_nibble h]

theorem decode_sti (h : field w 12 4 = Opcode.sti.nibble) : decode w = .sti (regField w 9) (field w 0 9) := by
  simp only [decode, opcodeOfBits_of_nibble h]

theorem decode_jmp (h : field w 12 4 = Opcode.jmp.nibble) : decode w = .jmp (regField w 6) := by
  simp only [decode, opcodeOfBits_of_nibble h]

theorem decode_res (h : field w 12 4 = Opcode.res.nibble) : decode w = .res := by
  simp only [decode, opcodeOfBits_of_nibble h]

theorem decode_lea (h : field w 12 4 = Opcode.lea.nibble) : decode w = .lea (regField w 9) (field w 0 9) := by
  simp only [decode, opcodeOfBits_of_nibble h]

theorem decode_trap (h : field w 12 4 = Opcode.trap.nibble) : decode w = decodeTrap (field w 0 8) := by
  simp only [decode, opcodeOfBits_of_nibble h]

end

/-! ## The fields of a word put together as in R52, by the widths of its parts -/

/-- The low part, read whole. -/
theorem extract_append_zero {m n : Nat} (x : BitVec m) (y : BitVec n) : (x ++ y).extractLsb' 0 n = y :=
  (extract_append_low x y (by omega)).trans (extract_whole y)

/-- A bit is a field of width 1. -/
theorem field_one_iff {w : Word} {i : Nat} {b : Bool} : field w i 1 = BitVec.ofBool b ↔ w.getLsbD i = b := by
  constructor
  · intro h
    have h0 := getLsbD_of_field h 0 (by decide)
    cases b <;> exact h0
  · rintro rfl
    apply BitVec.eq_of_getLsbD_eq
    intro k hk
    obtain rfl : k = 0 := by omega
    simp [field]

/-- The format of BR. -/
theorem fields_4_1_1_1_9 {w : Word} {a : BitVec 4} {b c d : BitVec 1} {e : BitVec 9} (h : w = a ++ b ++ c ++ d ++ e) :
    field w 12 4 = a ∧ field w 11 1 = b ∧ field w 10 1 = c ∧ field w 9 1 = d ∧ field w 0 9 = e := by
  subst h
  unfold field
  refine ⟨?_, ?_, ?_, ?_, extract_append_zero _ _⟩ <;> repeat rw [extract_append_high _ _ (by decide)]
  · exact extract_whole a
  · exact extract_append_zero _ _
  · exact extract_append_zero _ _
  · exact extract_append_zero _ _

/-- The format of LD, ST, LDI, STI, LEA. -/
theorem fields_4_3_9 {w : Word} {a : BitVec 4} {b : BitVec 3} {c : BitVec 9} (h : w = a ++ b ++ c) :
    field w 12 4 = a ∧ field w 9 3 = b ∧ field w 0 9 = c := by
  subst h
  unfold field
  refine ⟨?_, ?_, extract_append_zero _ _⟩ <;> repeat rw [extract_append_high _ _ (by decide)]
  · exact extract_whole a
  · exact extract_append_zero _ _

/-- The format of LDR, STR, NOT, JMP, JSRR. -/
theorem fields_4_3_3_6 {w : Word} {a : BitVec 4} {b c : BitVec 3} {d : BitVec 6} (h : w = a ++ b ++ c ++ d) :
    field w 12 4 = a ∧ field w 9 3 = b ∧ field w 6 3 = c ∧ field w 0 6 = d := by
  subst h
  unfold field
  refine ⟨?_, ?_, ?_, extract_append_zero _ _⟩ <;> repeat rw [extract_append_high _ _ (by decide)]
  · exact extract_whole a
  · exact extract_append_zero _ _
  · exact extract_append_zero _ _

/-- The format of ADD and AND, register form. -/
theorem fields_4_3_3_3_3 {w : Word} {a : BitVec 4} {b c d e : BitVec 3} (h : w = a ++ b ++ c ++ d ++ e) :
    field w 12 4 = a ∧ field w 9 3 = b ∧ field w 6 3 = c ∧ field w 3 3 = d ∧ field w 0 3 = e := by
  subst h
  unfold field
  refine ⟨?_, ?_, ?_, ?_, extract_append_zero _ _⟩ <;> repeat rw [extract_append_high _ _ (by decide)]
  · exact extract_whole a
  · exact extract_append_zero _ _
  · exact extract_append_zero _ _
  · exact extract_append_zero _ _

/-- The format of ADD and AND, immediate form. -/
theorem fields_4_3_3_1_5 {w : Word} {a : BitVec 4} {b c : BitVec 3} {d : BitVec 1} {e : BitVec 5}
    (h : w = a ++ b ++ c ++ d ++ e) :
    field w 12 4 = a ∧ field w 9 3 = b ∧ field w 6 3 = c ∧ field w 5 1 = d ∧ field w 0 5 = e := by
  subst h
  unfold field
  refine ⟨?_, ?_, ?_, ?_, extract_append_zero _ _⟩ <;> repeat rw [extract_append_high _ _ (by decide)]
  · exact extract_whole a
  · exact extract_append_zero _ _
  · exact extract_append_zero _ _
  · exact extract_append_zero _ _

/-- The format of JSR. -/
theorem fields_4_1_11 {w : Word} {a : BitVec 4} {b : BitVec 1} {c : BitVec 11} (h : w = a ++ b ++ c) :
    field w 12 4 = a ∧ field w 11 1 = b ∧ field w 0 11 = c := by
  subst h
  unfold field
  refine ⟨?_, ?_, extract_append_zero _ _⟩ <;> repeat rw [extract_append_high _ _ (by decide)]
  · exact extract_whole a
  · exact extract_append_zero _ _

/-- The format of TRAP: opcode, ignored bits, code. -/
theorem fields_4_4_8 {w : Word} {a b : BitVec 4} {c : BitVec 8} (h : w = a ++ b ++ c) : field w 12 4 = a ∧ field w 0 8 = c := by
  subst h
  unfold field
  refine ⟨?_, extract_append_zero _ _⟩
  repeat rw [extract_append_high _ _ (by decide)]
  exact extract_whole a

/-! ## Decoding the encoding -/

/-- Decoding the encoder's word: the fields of the word's format are the operands. -/
theorem decode_encode (i : Instr) (hwf : i.wf = true) : decode (encode i) = i := by
  cases i with
  | br n z p off9 =>
    obtain ⟨hop, hn, hz, hp, hoff⟩ := fields_4_1_1_1_9 (w := encode (.br n z p off9)) rfl
    rw [decode_br hop, field_one_iff.1 hn, field_one_iff.1 hz, field_one_iff.1 hp, hoff]
  | addReg dr sr1 sr2 =>
    obtain ⟨hop, hdr, hsr1, hflag, hsr2⟩ := fields_4_3_3_3_3 (w := encode (.addReg dr sr1 sr2)) rfl
    have hi : (encode (.addReg dr sr1 sr2)).getLsbD 5 = false := getLsbD_of_field hflag 2 (by decide)
    rw [decode_add hop, hi, regField_of_field hdr, regField_of_field hsr1, regField_of_field hsr2]; rfl
  | addImm dr sr1 imm5 =>
    obtain ⟨hop, hdr, hsr1, hflag, himm⟩ := fields_4_3_3_1_5 (w := encode (.addImm dr sr1 imm5)) rfl
    rw [decode_add hop, (field_one_iff (b := true)).1 hflag, regField_of_field hdr, regField_of_field hsr1, himm]; rfl
  | ld dr off9 =>
    obtain ⟨hop, hdr, hoff⟩ := fields_4_3_9 (w := encode (.ld dr off9)) rfl
    rw [decode_ld hop, regField_of_field hdr, hoff]
  | st sr off9 =>
    obtain ⟨hop, hsr, hoff⟩ := fields_4_3_9 (w := encode (.st sr off9)) rfl
    rw [decode_st hop, regField_of_field hsr, hoff]
  | jsr off11 =>
    obtain ⟨hop, hlong, hoff⟩ := fields_4_1_11 (w := encode (.jsr off11)) rfl
    rw [decode_jsr hop, (field_one_iff (b := true)).1 hlong, hoff]; rfl
  | jsrr baseR =>
    obtain ⟨hop, hlong, hb, -⟩ := fields_4_3_3_6 (w := encode (.jsrr baseR)) rfl
    have hl : (encode (.jsrr baseR)).getLsbD 11 = false := getLsbD_of_field hlong 2 (by decide)
    rw [decode_jsr hop, hl, regField_of_field hb]; rfl
  | andReg dr sr1 sr2 =>
    obtain ⟨hop, hdr, hsr1, hflag, hsr2⟩ := fields_4_3_3_3_3 (w := encode (.andReg dr sr1 sr2)) rfl
    have hi : (encode (.andReg dr sr1 sr2)).getLsbD 5 = false := getLsbD_of_field hflag 2 (by decide)
    rw [decode_and hop, hi, regField_of_field hdr, regField_of_field hsr1, regField_of_field hsr2]; rfl
  | andImm dr sr1 imm5 =>
    obtain ⟨hop, hdr, hsr1, hflag, himm⟩ := fields_4_3_3_1_5 (w := encode (.andImm dr sr1 imm5)) rfl
    rw [decode_and hop, (field_one_iff (b := true)).1 hflag, regField_of_field hdr, regField_of_field hsr1, himm]; rfl
  | ldr dr baseR off6 =>
    obtain ⟨hop, hdr, hb, hoff⟩ := fields_4_3_3_6 (w := encode (.ldr dr baseR off6)) rfl
    rw [decode_ldr hop, regField_of_field hdr, regField_of_field hb, hoff]
  | str sr baseR off6 =>
    obtain ⟨hop, hsr, hb, hoff⟩ := fields_4_3_3_6 (w := encode (.str sr baseR off6)) rfl
    rw [decode_str hop, regField_of_field hsr, regField_of_field hb, hoff]
  | not dr sr =>
    obtain ⟨hop, hdr, hsr, -⟩ := fields_4_3_3_6 (w := encode (.not dr sr)) rfl
    rw [decode_not hop, regField_of_field hdr, regField_of_field hsr]
  | ldi dr off9 =>
    obtain ⟨hop, hdr, hoff⟩ := fields_4_3_9 (w := encode (.ldi dr off9)) rfl
    rw [decode_ldi hop, regField_of_field hdr, hoff]
  | sti sr off9 =>
    obtain ⟨hop, hsr, hoff⟩ := fields_4_3_9 (w := encode (.sti sr off9)) rfl
    rw [decode_sti hop, regField_of_field hsr, hoff]
  | jmp baseR =>
    obtain ⟨hop, -, hb, -⟩ := fields_4_3_3_6 (w := encode (.jmp baseR)) rfl
    rw [decode_jmp hop, regField_of_field hb]
  | lea dr off9 =>
    obtain ⟨hop, hdr, hoff⟩ := fields_4_3_9 (w := encode (.lea dr off9)) rfl
    rw [decode_lea hop, regField_of_field hdr, hoff]
  | trap vect8 =>
    obtain ⟨hop, hv⟩ := fields_4_4_8 (w := encode (.trap vect8)) (a := 0xF) (b := 0x0) (c := vect8) rfl
    rw [decode_trap hop, hv, decodeTrap_unknown vect8 (by simpa [Instr.wf] using hwf)]
  | rti | res | getc | out | puts | inEcho | putsp | halt => rfl

/-- Settles O1, by the fields of each format. -/
theorem decodeOfEncodeIsTheInstruction : Obligations.DecodeOfEncodeIsTheInstruction := decode_encode

/-- A word the encoder gives decodes to the instruction it was given for. -/
theorem decode_of_encode_eq {i : Instr} {w : Word} (h : encode i = w) (hwf : i.wf = true) : decode w = i :=
  h ▸ decode_encode i hwf

/-- Settles O5: the four encodings are computed, and the decodings are those of the encoder's words. -/
theorem workedEncodingsDecode : Obligations.WorkedEncodingsDecode := by
  have hadd : encode (.addImm 0 0 5) = 0x1025 := by decide
  have hjsr : encode (.jsr 2) = 0x4802 := by decide
  have hjmp : encode (.jmp 7) = 0xC1C0 := by decide
  have hputs : encode .puts = 0xF022 := by decide
  exact ⟨decode_of_encode_eq hadd rfl, decode_of_encode_eq hjsr rfl, decode_of_encode_eq hjmp rfl,
    decode_of_encode_eq hputs rfl, hadd, hjsr, hjmp, hputs⟩

/-! ## Ignored bits (R55) -/

/-- The register forms of ADD and AND have zeros in the two bits between the flag and the last register. -/
theorem register_form_ignored (f : BitVec 4) (dr sr1 sr2 : Reg) :
    (f ++ regBits dr ++ regBits sr1 ++ 0b000#3 ++ regBits sr2) &&& 0x0018#16 = 0x0000#16 := by
  show (f ++ regBits dr ++ regBits sr1 ++ 0b000#3 ++ regBits sr2) &&& (0x0#4 ++ 0#3 ++ 0#3 ++ 0b011#3 ++ 0#3) = _
  simp only [BitVec.and_append, BitVec.and_zero]
  rfl

/-- The encoder writes ignored bits as zeros, but NOT's as ones (log 21): each mask is cut as the format is. -/
theorem encode_ignored (i : Instr) : encode i &&& i.ignoredMask = if i.opcode = .not then 0x003F else 0x0000 := by
  cases i with
  | addReg dr sr1 sr2 => exact register_form_ignored 0x1 dr sr1 sr2
  | andReg dr sr1 sr2 => exact register_form_ignored 0x5 dr sr1 sr2
  | jsrr baseR =>
    show (0x4#4 ++ 0b000#3 ++ regBits baseR ++ 0b000000#6) &&& (0x0#4 ++ 0b011#3 ++ 0#3 ++ 0b111111#6) = _
    simp only [BitVec.and_append, BitVec.and_zero]
    rfl
  | not dr sr =>
    show (0x9#4 ++ regBits dr ++ regBits sr ++ 0b111111#6) &&& (0x0#4 ++ 0#3 ++ 0#3 ++ 0b111111#6) = _
    simp only [BitVec.and_append, BitVec.and_zero]
    rfl
  | jmp baseR =>
    show (0xC#4 ++ 0b000#3 ++ regBits baseR ++ 0b000000#6) &&& (0x0#4 ++ 0b111#3 ++ 0#3 ++ 0b111111#6) = _
    simp only [BitVec.and_append, BitVec.and_zero]
    rfl
  | trap vect8 =>
    show ((0xF0#8 ++ vect8) &&& (0x0F#8 ++ 0#8) : Word) = _
    simp only [BitVec.and_append, BitVec.and_zero]
    rfl
  | rti | res | getc | out | puts | inEcho | putsp | halt => rfl
  | br | addImm | ld | st | jsr | andImm | ldr | str | ldi | sti | lea => exact BitVec.and_zero

/-- Words that agree under a mask agree in every field that the mask covers. -/
theorem field_eq_of_agree {w w' m : Word} {lo k : Nat} (h : w &&& m = w' &&& m)
    (hm : field m lo k = BitVec.allOnes k) : field w lo k = field w' lo k := by
  have h' := congrArg (field · lo k) h
  simpa only [field, BitVec.extractLsb'_and, show m.extractLsb' lo k = _ from hm, BitVec.and_allOnes] using h'

/-- The same for a register field. -/
theorem regField_eq_of_agree {w w' m : Word} {lo : Nat} (h : w &&& m = w' &&& m)
    (hm : field m lo 3 = BitVec.allOnes 3) : regField w lo = regField w' lo :=
  congrArg BitVec.toFin (field_eq_of_agree h hm)

/-- The same for a single bit. -/
theorem getLsbD_eq_of_agree {w w' m : Word} {i : Nat} (h : w &&& m = w' &&& m)
    (hm : m.getLsbD i = true) : w.getLsbD i = w'.getLsbD i := by
  simpa [BitVec.getLsbD_and, hm] using congrArg (BitVec.getLsbD · i) h

/-- Words that agree under a mask covering the opcode have the same opcode. -/
theorem nibble_of_agree {w w' m : Word} {o : Opcode} (hop : field w 12 4 = o.nibble) (h : w &&& m = w' &&& m)
    (hm : field m 12 4 = BitVec.allOnes 4) : field w' 12 4 = o.nibble :=
  (field_eq_of_agree h hm).symm.trans hop

/-- Every TRAP code decodes to an instruction with the same ignored bits. -/
theorem decodeTrap_ignoredMask (v : BitVec 8) : (decodeTrap v).ignoredMask = 0x0F00 := by
  unfold decodeTrap
  split_ifs <;> rfl

/-- The register forms of ADD and AND read the same from words that agree outside their ignored bits. -/
theorem register_form_fields_of_agree {w w' : Word} (h : w &&& ~~~ 0x0018#16 = w' &&& ~~~ 0x0018#16) :
    regField w 9 = regField w' 9 ∧ regField w 6 = regField w' 6 ∧ w.getLsbD 5 = w'.getLsbD 5 ∧
      regField w 0 = regField w' 0 :=
  ⟨regField_eq_of_agree h rfl, regField_eq_of_agree h rfl, getLsbD_eq_of_agree h rfl, regField_eq_of_agree h rfl⟩

/-- Decoding depends on no bit that the decoded instruction ignores. -/
theorem decode_eq_of_agree {w w' : Word}
    (h : w &&& ~~~ (decode w).ignoredMask = w' &&& ~~~ (decode w).ignoredMask) : decode w' = decode w := by
  have same (hi : (decode w).ignoredMask = 0x0000#16) : decode w' = decode w := by
    rw [hi, show ~~~ 0x0000#16 = BitVec.allOnes 16 from rfl, BitVec.and_allOnes, BitVec.and_allOnes] at h
    rw [h]
  obtain ⟨o, hop⟩ := exists_opcode w
  cases o with
  | br => exact same (by rw [decode_br hop]; rfl)
  | ld => exact same (by rw [decode_ld hop]; rfl)
  | st => exact same (by rw [decode_st hop]; rfl)
  | ldr => exact same (by rw [decode_ldr hop]; rfl)
  | str => exact same (by rw [decode_str hop]; rfl)
  | ldi => exact same (by rw [decode_ldi hop]; rfl)
  | sti => exact same (by rw [decode_sti hop]; rfl)
  | lea => exact same (by rw [decode_lea hop]; rfl)
  | add =>
    by_cases himm : w.getLsbD 5
    · exact same (by rw [decode_add hop, if_pos himm]; rfl)
    · rw [decode_add hop, if_neg himm] at h ⊢
      obtain ⟨hdr, hsr1, hflag, hsr2⟩ := register_form_fields_of_agree h
      rw [decode_add (nibble_of_agree (m := ~~~ 0x0018#16) hop h rfl), ← hflag, if_neg himm, hdr, hsr1, hsr2]
  | and =>
    by_cases himm : w.getLsbD 5
    · exact same (by rw [decode_and hop, if_pos himm]; rfl)
    · rw [decode_and hop, if_neg himm] at h ⊢
      obtain ⟨hdr, hsr1, hflag, hsr2⟩ := register_form_fields_of_agree h
      rw [decode_and (nibble_of_agree (m := ~~~ 0x0018#16) hop h rfl), ← hflag, if_neg himm, hdr, hsr1, hsr2]
  | jsr =>
    by_cases hlong : w.getLsbD 11
    · exact same (by rw [decode_jsr hop, if_pos hlong]; rfl)
    · rw [decode_jsr hop, if_neg hlong] at h ⊢
      change w &&& ~~~ 0x063F#16 = w' &&& ~~~ 0x063F#16 at h
      rw [decode_jsr (nibble_of_agree hop h rfl), ← getLsbD_eq_of_agree h rfl, if_neg hlong,
        regField_eq_of_agree (lo := 6) h rfl]
  | rti =>
    rw [decode_rti hop] at h ⊢
    exact decode_rti (nibble_of_agree hop h rfl)
  | res =>
    rw [decode_res hop] at h ⊢
    exact decode_res (nibble_of_agree hop h rfl)
  | not =>
    rw [decode_not hop] at h ⊢
    change w &&& ~~~ 0x003F#16 = w' &&& ~~~ 0x003F#16 at h
    rw [decode_not (nibble_of_agree hop h rfl), regField_eq_of_agree (lo := 9) h rfl, regField_eq_of_agree (lo := 6) h rfl]
  | jmp =>
    rw [decode_jmp hop] at h ⊢
    change w &&& ~~~ 0x0E3F#16 = w' &&& ~~~ 0x0E3F#16 at h
    rw [decode_jmp (nibble_of_agree hop h rfl), regField_eq_of_agree (lo := 6) h rfl]
  | trap =>
    rw [decode_trap hop, decodeTrap_ignoredMask] at h
    rw [decode_trap hop, decode_trap (nibble_of_agree hop h rfl), field_eq_of_agree (lo := 0) h rfl]

/-- Settles O3, from the fields outside the ignored bits and the encoder's formats. -/
theorem ignoredBitsAreNotExamined : Obligations.IgnoredBitsAreNotExamined :=
  ⟨fun _ _ => decode_eq_of_agree, encode_ignored⟩

/-! ## The rows of the opcode table (R54, R63) -/

/-- Every row looks at the whole opcode. -/
theorem rowMask_nibble (j : Instr) : field j.rowMask 12 4 = BitVec.allOnes 4 := by cases j <;> rw [Instr.rowMask] <;> rfl

/-- Every row asks for its own opcode. -/
theorem rowMatch_nibble (j : Instr) : field j.rowMatch 12 4 = j.opcode.nibble := by cases j <;> rw [Instr.rowMatch] <;> rfl

/-- A word that matches a row has the row's bits in every field the row's mask covers. -/
theorem field_of_row {w : Word} {j : Instr} {lo k : Nat} (h : w &&& j.rowMask = j.rowMatch)
    (hm : field j.rowMask lo k = BitVec.allOnes k) : field w lo k = field j.rowMatch lo k := by
  rw [← h, field, field, BitVec.extractLsb'_and, show j.rowMask.extractLsb' lo k = _ from hm, BitVec.and_allOnes]

/-- A word that matches a row has the row's opcode. -/
theorem opcode_of_row {w : Word} {j : Instr} (h : w &&& j.rowMask = j.rowMatch) : field w 12 4 = j.opcode.nibble :=
  (field_of_row h (rowMask_nibble j)).trans (rowMatch_nibble j)

/-- Every TRAP code decodes to an instruction of opcode TRAP (R110). -/
theorem decodeTrap_opcode (v : BitVec 8) : (decodeTrap v).opcode = .trap := by
  unfold decodeTrap
  split_ifs <;> rfl

/-- A word under the mask of a service's row. -/
theorem mask_code {w : Word} {f : BitVec 4} {v : BitVec 8} (h : field w 12 4 = f) (hv : field w 0 8 = v) :
    w &&& 0xF0FF#16 = f ++ 0#4 ++ v := by
  subst h hv
  unfold field
  apply BitVec.eq_of_getLsbD_eq
  intro k hk
  rw [BitVec.getLsbD_and]
  repeat rw [BitVec.getLsbD_append]
  interval_cases k <;> simp

/-- The opcode and the long-call bit as one field. -/
theorem field_long_call {w : Word} {f : BitVec 4} {b : Bool} (h : field w 12 4 = f) (hb : w.getLsbD 11 = b) :
    field w 11 5 = f ++ BitVec.ofBool b := by
  rw [← h, ← field_one_iff.2 hb]
  apply BitVec.eq_of_getLsbD_eq
  intro k hk
  rw [BitVec.getLsbD_append]
  interval_cases k <;> simp [field]

/-- Every TRAP word matches the row of its code. -/
theorem decodeTrap_row {w : Word} (h : field w 12 4 = Opcode.trap.nibble) :
    w &&& (decodeTrap (field w 0 8)).rowMask = (decodeTrap (field w 0 8)).rowMatch := by
  unfold decodeTrap
  split_ifs with h0 h1 h2 h3 h4 h5
  · exact mask_code h h0
  · exact mask_code h h1
  · exact mask_code h h2
  · exact mask_code h h3
  · exact mask_code h h4
  · exact mask_code h h5
  · exact mask_nibble h

/-- The decoded instruction is well-formed, has the word's opcode, and the word matches its row. -/
theorem decode_row {w : Word} {o : Opcode} (h : field w 12 4 = o.nibble) :
    (decode w).wf = true ∧ (decode w).opcode = o ∧ w &&& (decode w).rowMask = (decode w).rowMatch := by
  cases o with
  | br => rw [decode_br h]; exact ⟨rfl, rfl, mask_nibble h⟩
  | ld => rw [decode_ld h]; exact ⟨rfl, rfl, mask_nibble h⟩
  | st => rw [decode_st h]; exact ⟨rfl, rfl, mask_nibble h⟩
  | ldr => rw [decode_ldr h]; exact ⟨rfl, rfl, mask_nibble h⟩
  | str => rw [decode_str h]; exact ⟨rfl, rfl, mask_nibble h⟩
  | rti => rw [decode_rti h]; exact ⟨rfl, rfl, mask_nibble h⟩
  | not => rw [decode_not h]; exact ⟨rfl, rfl, mask_nibble h⟩
  | ldi => rw [decode_ldi h]; exact ⟨rfl, rfl, mask_nibble h⟩
  | sti => rw [decode_sti h]; exact ⟨rfl, rfl, mask_nibble h⟩
  | jmp => rw [decode_jmp h]; exact ⟨rfl, rfl, mask_nibble h⟩
  | res => rw [decode_res h]; exact ⟨rfl, rfl, mask_nibble h⟩
  | lea => rw [decode_lea h]; exact ⟨rfl, rfl, mask_nibble h⟩
  | add =>
    rw [decode_add h]
    cases hb : w.getLsbD 5 with
    | true => exact ⟨rfl, rfl, mask_flag h (field_one_iff.2 hb)⟩
    | false => exact ⟨rfl, rfl, mask_flag h (field_one_iff.2 hb)⟩
  | and =>
    rw [decode_and h]
    cases hb : w.getLsbD 5 with
    | true => exact ⟨rfl, rfl, mask_flag h (field_one_iff.2 hb)⟩
    | false => exact ⟨rfl, rfl, mask_flag h (field_one_iff.2 hb)⟩
  | jsr =>
    rw [decode_jsr h]
    cases hb : w.getLsbD 11 with
    | true => exact ⟨rfl, rfl, mask_five (field_long_call h hb)⟩
    | false => exact ⟨rfl, rfl, mask_five (field_long_call h hb)⟩
  | trap => rw [decode_trap h]; exact ⟨decodeTrap_wf _, decodeTrap_opcode _, decodeTrap_row h⟩

/-- The mask of an opcode's rows. Those of TRAP have two masks; this one is the TRAP row's own. -/
def Opcode.rowMask : Opcode → Word
  | .add | .and => 0xF020
  | .jsr => 0xF800
  | .br | .ld | .st | .ldr | .str | .rti | .not | .ldi | .sti | .jmp | .res | .lea | .trap => 0xF000

/-- Outside TRAP the opcode fixes the mask. -/
theorem rowMask_of_opcode {i : Instr} (h : i.opcode ≠ .trap) : i.rowMask = i.opcode.rowMask := by
  cases i with
  | trap | getc | out | puts | inEcho | putsp | halt => exact absurd rfl h
  | _ => rfl

/-- A row of TRAP looks at the opcode alone, or is the row of one service. -/
theorem trap_row_cases {j : Instr} (h : j.opcode = .trap) :
    j.rowMask = 0xF000 ∨ j.rowMask = 0xF0FF ∧ decodeTrap (field j.rowMatch 0 8) = j := by
  cases j with
  | trap => exact .inl rfl
  | getc | out | puts | inEcho | putsp | halt => exact .inr ⟨rfl, rfl⟩
  | _ => cases h

/-- The TRAP row's mask lies in every row's. -/
theorem opcodeMask_contained (i : Instr) : 0xF000 &&& i.rowMask = 0xF000 := by
  cases i <;> rw [Instr.rowMask] <;> rfl

/-- A row that matches a word has no mask bit that the row of its decoding lacks. -/
theorem rowMask_contained {w : Word} {j : Instr} (h : w &&& j.rowMask = j.rowMatch) :
    j.rowMask &&& (decode w).rowMask = j.rowMask := by
  have hop := opcode_of_row h
  obtain ⟨-, hop', -⟩ := decode_row hop
  by_cases htrap : j.opcode = .trap
  · rcases trap_row_cases htrap with hm | ⟨hm, hj⟩
    · rw [hm, opcodeMask_contained]
    · have hd : decode w = j := by
        rw [decode_trap (htrap ▸ hop), field_of_row h (by rw [hm]; rfl), hj]
      rw [hd, BitVec.and_self]
  · rw [rowMask_of_opcode htrap, rowMask_of_opcode (hop' ▸ htrap), hop', BitVec.and_self]

/-- Settles O2: the word matches the row of its decoding, which has every mask bit of any row the word matches. -/
theorem everyWordMatchesItsMostSpecificRow : Obligations.EveryWordMatchesItsMostSpecificRow := by
  intro w
  obtain ⟨o, hop⟩ := exists_opcode w
  obtain ⟨hwf, -, hrow⟩ := decode_row hop
  refine ⟨hwf, hrow, fun j hj => ⟨rowMask_contained hj, fun hm => ?_⟩⟩
  rw [← hj, ← hrow, hm]

/-! ## Fields as quotients and remainders (R52) -/

/-- A field is the quotient by its place, cut to its width. -/
theorem field_eq_ofNat (w : Word) (lo k : Nat) : field w lo k = BitVec.ofNat k (w.toNat / 2 ^ lo) := by
  apply BitVec.eq_of_toNat_eq
  rw [field, BitVec.extractLsb'_toNat, BitVec.toNat_ofNat, Nat.shiftRight_eq_div_pow]

/-- A register field is the quotient by its place, modulo 8. -/
theorem regField_eq_ofNat (w : Word) (lo : Nat) : regField w lo = Fin.ofNat 8 (w.toNat / 2 ^ lo) := by
  rw [regField, field_eq_ofNat]; rfl

/-- A bit is the parity of the quotient by its place. -/
theorem getLsbD_eq_decide (w : Word) (i : Nat) : w.getLsbD i = decide (w.toNat / 2 ^ i % 2 = 1) :=
  Nat.testBit_eq_decide_div_mod_eq

/-- Only the low eight bits of a number count as a TRAP code. -/
theorem decodeTrap_ofNat_of_mod {x k : Nat} (h : x % 256 = k) :
    decodeTrap (BitVec.ofNat 8 x) = decodeTrap (BitVec.ofNat 8 k) := by
  have hx : BitVec.ofNat 8 x = BitVec.ofNat 8 k := BitVec.eq_of_toNat_eq (by simp [← h])
  rw [hx]

/-- A number whose low eight bits are no service code stays with the TRAP row. -/
theorem decodeTrap_ofNat_unknown {x : Nat} (h : x % 256 < 0x20 ∨ 0x25 < x % 256) :
    decodeTrap (BitVec.ofNat 8 x) = .trap (BitVec.ofNat 8 x) := by
  apply decodeTrap_unknown
  simp only [isServiceCode, BitVec.toNat_ofNat, Bool.and_eq_false_iff, decide_eq_false_iff_not]
  omega

/-- Settles O4: the decoder's equation for each opcode, with its fields read as quotients and remainders. -/
theorem decodingProcedureReadsTheFields : Obligations.DecodingProcedureReadsTheFields := by
  intro w x r9 r6 r0 immediate
  have nib {k : Nat} (h : x / 4096 = k) : field w 12 4 = BitVec.ofNat 4 k := h ▸ field_eq_ofNat w 12 4
  have h9 : regField w 9 = r9 := regField_eq_ofNat w 9
  have h6 : regField w 6 = r6 := regField_eq_ofNat w 6
  have h0 : regField w 0 = r0 := by rw [regField_eq_ofNat, pow_zero, Nat.div_one]
  have low (k : Nat) : field w 0 k = BitVec.ofNat k x := by rw [field_eq_ofNat, pow_zero, Nat.div_one]
  have himm : w.getLsbD 5 = immediate := getLsbD_eq_decide w 5
  have hn : w.getLsbD 11 = decide (x / 2048 % 2 = 1) := getLsbD_eq_decide w 11
  have hz : w.getLsbD 10 = decide (x / 1024 % 2 = 1) := getLsbD_eq_decide w 10
  have hp : w.getLsbD 9 = decide (x / 512 % 2 = 1) := getLsbD_eq_decide w 9
  refine ⟨?br, ?add, ?ld, ?st, ?jsr, ?and, ?ldr, ?str, ?rti, ?not, ?ldi, ?sti, ?jmp, ?res, ?lea, ?trap⟩ <;> intro h
  case br => rw [decode_br (nib h), hn, hz, hp, low]
  case add => rw [decode_add (nib h), himm, h9, h6, h0, low]
  case ld => rw [decode_ld (nib h), h9, low]
  case st => rw [decode_st (nib h), h9, low]
  case jsr => rw [decode_jsr (nib h), hn, h6, low]; simp only [decide_eq_true_eq]
  case and => rw [decode_and (nib h), himm, h9, h6, h0, low]
  case ldr => rw [decode_ldr (nib h), h9, h6, low]
  case str => rw [decode_str (nib h), h9, h6, low]
  case rti => exact decode_rti (nib h)
  case not => rw [decode_not (nib h), h9, h6]
  case ldi => rw [decode_ldi (nib h), h9, low]
  case sti => rw [decode_sti (nib h), h9, low]
  case jmp => rw [decode_jmp (nib h), h6]
  case res => exact decode_res (nib h)
  case lea => rw [decode_lea (nib h), h9, low]
  case trap =>
    rw [decode_trap (nib h), low]
    exact ⟨decodeTrap_ofNat_of_mod, decodeTrap_ofNat_of_mod, decodeTrap_ofNat_of_mod, decodeTrap_ofNat_of_mod,
      decodeTrap_ofNat_of_mod, decodeTrap_ofNat_of_mod, decodeTrap_ofNat_unknown⟩

end Sys2Proof
end

section
/-! SUPPORT. The execution loop (40_execution_loop.md R70 to R79): the fetch and the increment, the fetch from KBSR, the three ends of a
run, the round trip of the document, and the word placed for the host. -/

namespace Sys2Proof.Machine

/-! ## The fetch (R70 to R73) -/

/-- Settles O43: the fetch is one read at `pc`, and a read away from KBSR is plain. -/
theorem stepRunsTheDecodedInstruction : Obligations.StepRunsTheDecodedInstruction := fun _ hf =>
  ⟨fun _ _ hm => step_of_memRead hf.1 hf.2 hm, step_of_plain_fetch hf⟩

/-- A fetch from KBSR that polls leaves what the poll leaves, one address further: the status word is a no-op (R71). -/
theorem step_of_kbsr_fetch {s u : State} {w : Word} (hw : s.mem.wf) (hr : s.run = .running) (hpc : s.pc = Config.kbsr)
    (hm : s.memRead Config.kbsr = some (w, u)) : step s = .next (u.setPc 0xFE01) := by
  obtain ⟨-, hupc, -⟩ := State.memRead_keeps hm
  have htop : s.pc ≠ Config.topAddress := by rw [hpc]; decide
  rw [step_of_memRead hr htop (hpc ▸ hm), exec_kbsr_word hm hw, hupc, hpc]
  rfl

/-- Settles O44: the poll writes KBSR and, for a non-empty line, KBDR; the status word it leaves then moves `pc` alone. -/
theorem fetchFromKbsrPollsAndDoesNothing : Obligations.FetchFromKbsrPollsAndDoesNothing := by
  intro s line rest hw hr hpc hc
  obtain ⟨-, -, hidle, hready⟩ := readPollsTheKeyboardAtKbsrOnly s hw
  cases line with
  | nil =>
    obtain ⟨u, hm, hu, hkbsr, hother⟩ := hidle rest hc
    exact ⟨u.setPc 0xFE01, step_of_kbsr_fetch hw hr hpc hm, congrArg (State.setPc · 0xFE01) hu, hkbsr,
      hother 0xFE02 (by decide), fun a ha _ => hother a ha⟩
  | cons c cs =>
    obtain ⟨u, hm, hu, hkbsr, hkbdr, hother⟩ := hready c cs rest hc
    exact ⟨u.setPc 0xFE01, step_of_kbsr_fetch hw hr hpc hm, congrArg (State.setPc · 0xFE01) hu, hkbsr, hkbdr, hother⟩

/-! ## The ends of a run (R74, R76, R77) -/

/-- The guard ends a run at the top address (R74). -/
theorem step_of_top {s : State} (hr : s.run = .running) (hpc : s.pc = Config.topAddress) : step s = .next (s.stop .loopExit) := by
  simp [step, State.loopGuard, hr, hpc]

/-- Settles O45: the two answers of a step that fetches nothing. -/
theorem noStepAtTheTopOrAfterTheEnd : Obligations.NoStepAtTheTopOrAfterTheEnd :=
  ⟨fun _ => step_of_top, fun _ hr => if_pos hr⟩

/-- A decoded TRAP of the TRAP row has no service code, so it ends the run Faulted (R119). -/
theorem execTrap_of_wf {v : BitVec 8} (hv : (Instr.trap v).wf = true) (s : State) : execTrap v s = .next (s.stop .faulted) := by
  rcases execTrap_cases v s with ⟨rfl, -⟩ | ⟨rfl, -⟩ | ⟨rfl, -⟩ | ⟨rfl, -⟩ | ⟨rfl, -⟩ | ⟨rfl, -⟩ | ⟨-, he⟩
  iterate 6 exact absurd hv (by decide)
  exact he

section

variable {s t : State}

theorem State.memRead_run {a v : Word} (h : s.memRead a = some (v, t)) : t.run = s.run := by
  obtain ⟨-, -, -, hrun, -⟩ := State.memRead_keeps h
  exact hrun

theorem State.loadInto_run {dr : Reg} {ea : Word} (h : s.loadInto dr ea = .next t) : t.run = s.run := by
  rcases State.loadInto_next h with ⟨-, rfl⟩ | ⟨v, u, hm, rfl⟩
  · rfl
  · exact (State.memRead_run hm :)

theorem execLdi_run {dr : Reg} {off9 : BitVec 9} (h : execLdi dr off9 s = .next t) : t.run = s.run := by
  rcases execLdi_next h with rfl | ⟨ptr, u, v, x, hp, hv, rfl⟩
  · rfl
  · exact (State.memRead_run hv).trans (State.memRead_run hp)

theorem execSti_run {sr : Reg} {off9 : BitVec 9} (h : execSti sr off9 s = .next t) : t.run = s.run := by
  rcases execSti_next h with rfl | ⟨ptr, u, hp, rfl⟩
  · rfl
  · exact (State.memRead_run hp :)

theorem State.readCharacter_run {echo : Word → List Word} (h : s.readCharacter echo = .next t) : t.run = s.run := by
  rcases State.readCharacter_next h with ⟨-, rfl⟩ | ⟨c, cs, rest, -, rfl⟩
  · rfl
  · rfl

theorem State.writeString_run {codes : Word → List Word} (h : s.writeString codes = .next t) : t.run = s.run := by
  rcases State.writeString_next h with ⟨-, rfl⟩ | hscan
  · rfl
  · obtain ⟨-, -, -, hrun⟩ := State.scanString_frame hscan
    exact hrun

/-- An instruction of the decoder leaves the run state alone, or it is HALT or of the TRAP row and ends the run where it stands (R76). -/
theorem exec_run {i : Instr} (hi : i.wf = true) (h : exec i s = .next t) :
    t.run = s.run ∨ (i = .halt ∧ t.run = .halted ∧ t.pc = s.pc) ∨ ((∃ v, i = .trap v) ∧ t.run = .faulted ∧ t.pc = s.pc) := by
  cases i with
  | halt => cases h; exact .inr (.inl ⟨rfl, rfl, rfl⟩)
  | trap v =>
    change execTrap v s = _ at h
    rw [execTrap_of_wf hi] at h
    cases h; exact .inr (.inr ⟨⟨v, rfl⟩, rfl, rfl⟩)
  | br n z p off9 =>
    change execBr n z p off9 s = _ at h
    unfold execBr at h
    split_ifs at h <;> cases h <;> exact .inl rfl
  | ld | ldr => exact .inl (State.loadInto_run h)
  | ldi => exact .inl (execLdi_run h)
  | sti => exact .inl (execSti_run h)
  | getc | inEcho => exact .inl (State.readCharacter_run h)
  | puts | putsp => exact .inl (State.writeString_run h)
  | addReg | addImm | andReg | andImm | not | lea | st | str | jsr | jsrr | jmp | rti | res | out => cases h; exact .inl rfl

end

/-- Settles O46: the guard ends the run at the top address; a word fetched from KBSR is a no-op; of the instructions fetched elsewhere
only HALT and those of the TRAP row end it. -/
theorem runEndsInThreeWaysOnly : Obligations.RunEndsInThreeWaysOnly := by
  intro s t hw hr hstep hend
  obtain ⟨-, ⟨hp, rfl⟩ | ⟨-, -, rfl⟩ | ⟨hp, w, u, hm, he⟩⟩ := step_next hstep
  · exact .inl ⟨rfl, hp⟩
  · exact absurd hr hend
  · by_cases hk : s.pc = Config.kbsr
    · rw [hk] at hm
      rw [exec_kbsr_word hm hw] at he
      cases he
      exact absurd ((State.memRead_run hm).trans hr) hend
    · rw [s.memRead_plain s.pc hk] at hm
      cases hm
      obtain ⟨hwf, -⟩ := everyWordMatchesItsMostSpecificRow (s.word s.pc)
      rcases exec_run hwf he with hrun | ⟨hi, hrun, hpc⟩ | ⟨hi, hrun, hpc⟩
      · exact absurd (hrun.trans hr) hend
      · exact .inr (.inl ⟨hp, hk, hi, hrun, hpc⟩)
      · exact .inr (.inr ⟨hp, hk, hi, hrun, hpc⟩)

/-! ## The round trip of the document (R79) -/

/-- A loaded core of one word runs that word first (R151, R79). -/
theorem step_bootState_singleton (p : OpenReset) (lines : List Line) {origin : Word} (w : Word) (hw : p.mem.wf)
    (htop : origin ≠ Config.topAddress) (hk : origin ≠ Config.kbsr) :
    step (bootState p lines origin [w]) = exec (decode w) ((bootState p lines origin [w]).setPc (origin + 1#16)) := by
  have hword : (bootState p lines origin [w]).word origin = w := Memory.read_write_same _ _ _ hw.1
  have hstep := step_of_plain_fetch (s := bootState p lines origin [w]) ⟨rfl, htop⟩ hk
  exact hstep.trans (congrArg (fun x => exec (decode x) _) hword)

/-- Settles O54: the image loads as the origin 0x3000 and one word, which decodes to ADD R0, R0, #5. -/
theorem roundTripExampleGivesFive : Obligations.RoundTripExampleGivesFive := by
  intro p lines hw h0
  obtain ⟨hadd, -⟩ := workedEncodingsDecode
  have hstep := step_bootState_singleton p lines (origin := 0x3000) 0x1025 hw (by decide) (by decide)
  rw [hadd] at hstep
  have hsum : p.gpr[(0 : Reg)] + sext 5#5 = 5 := by rw [h0]; decide
  refine ⟨_, _, rfl, hstep, ?_, ?_, rfl⟩
  · exact (regs_set_get p.gpr 0 0 _).trans hsum
  · exact (State.setRegCC_cond _ 0 _).trans (congrArg condOf hsum)

/-! ## The word placed for the host (log 26) -/

/-- A table row of 16 bits stands for its word. -/
theorem tableWord_toNat (w : Word) : tableWord 16 w.toNat = w := by
  rw [tableWord, Nat.mod_eq_of_lt w.isLt, BitVec.ofNat_toNat, BitVec.setWidth_eq]

/-- Every word is an instruction of the table (R50, R54). -/
theorem decodeTableWord_toNat (w : Word) : decodeTableWord 16 w.toNat = some (decode w) := by
  rw [decodeTableWord, if_pos (Nat.mod_lt _ (by decide)), tableWord_toNat]

/-- Something is fetched at the fetch place, and as it stands in memory (R70, R71). -/
theorem State.fetchPlace_ne (s : State) : s.fetchPlace ≠ Config.topAddress ∧ s.fetchPlace ≠ Config.kbsr := by
  unfold State.fetchPlace
  split_ifs with h
  · decide
  · exact not_or.1 h

/-- Settles O59: the word is stored at the fetch place, where the guard holds and the fetch is plain. -/
theorem placedWordIsRunNext : Obligations.PlacedWordIsRunNext := by
  intro s w hw
  obtain ⟨htop, hk⟩ := s.fetchPlace_ne
  have hword : (s.withFetchWord 16 w.toNat).word s.fetchPlace = w :=
    (s.word_setWord_same s.fetchPlace _ hw).trans (tableWord_toNat w)
  have hstep := step_of_plain_fetch (s := s.withFetchWord 16 w.toNat) ⟨rfl, htop⟩ hk
  exact ⟨_, hword, rfl, rfl, hstep.trans (congrArg (fun x => exec (decode x) _) hword), decodeTableWord_toNat w⟩

end Sys2Proof.Machine
end

section
/-! SUPPORT. ADD, AND and NOT (41_arithmetic_logic.md R80 to R84): each answers its result written to the destination, so what is left to
say of an instruction is its result in the rule's own words. -/

namespace Sys2Proof.Machine

/-- The whole state after the end of the seven instructions of R17, the condition by the sign of the word written (R16, R87). -/
theorem State.setRegCC_eq_signCond (s : State) (dr : Reg) (v : Word) :
    s.setRegCC dr v = { s with regs := s.regs.set dr v, cond := signCond v } := by
  rw [State.setRegCC_eq, condOf_eq_signCond]

/-- The complement of a word is what it lacks to 0xFFFF (R84). -/
theorem not_eq_ofNat_sub (v : Word) : ~~~ v = BitVec.ofNat 16 (0xFFFF - v.toNat) := by
  apply BitVec.eq_of_toNat_eq
  rw [BitVec.toNat_not, BitVec.toNat_ofNat]
  omega

/-! ## The answers, in the model's operations -/

theorem exec_addReg (dr sr1 sr2 : Reg) (s : State) :
    exec (.addReg dr sr1 sr2) s = .next (s.setRegCC dr (s.regs[sr1] + s.regs[sr2])) := rfl

theorem exec_addImm (dr sr1 : Reg) (imm5 : BitVec 5) (s : State) :
    exec (.addImm dr sr1 imm5) s = .next (s.setRegCC dr (s.regs[sr1] + sext imm5)) := rfl

theorem exec_andReg (dr sr1 sr2 : Reg) (s : State) :
    exec (.andReg dr sr1 sr2) s = .next (s.setRegCC dr (s.regs[sr1] &&& s.regs[sr2])) := rfl

theorem exec_andImm (dr sr1 : Reg) (imm5 : BitVec 5) (s : State) :
    exec (.andImm dr sr1 imm5) s = .next (s.setRegCC dr (s.regs[sr1] &&& sext imm5)) := rfl

theorem exec_not (dr sr : Reg) (s : State) : exec (.not dr sr) s = .next (s.setRegCC dr (~~~ s.regs[sr])) := rfl

/-! ## The three statements -/

/-- Settles O11: a sum of words is the sum of their numbers modulo 65536, and the extended immediate adds its signed value. -/
theorem addWritesSumAndCondition : Obligations.AddWritesSumAndCondition := by
  intro dr sr1 sr2 imm5 s
  constructor
  · rw [exec_addReg, State.setRegCC_eq_signCond, BitVec.add_def]
  · rw [exec_addImm, State.setRegCC_eq_signCond, add_sext_eq_wordPlus _ imm5 (by decide) (by decide)]

/-- Settles O12: the immediate is extended before the conjunction. -/
theorem andWritesConjunctionAndCondition : Obligations.AndWritesConjunctionAndCondition := by
  intro dr sr1 sr2 imm5 s
  constructor
  · rw [exec_andReg, State.setRegCC_eq_signCond]
  · rw [exec_andImm, State.setRegCC_eq_signCond, sext_eq_signExtend imm5 (by decide)]

/-- Settles O13: the complement is a difference from 0xFFFF. -/
theorem notWritesComplementAndCondition : Obligations.NotWritesComplementAndCondition := by
  intro dr sr s
  rw [exec_not, State.setRegCC_eq_signCond, not_eq_ofNat_sub]

end Sys2Proof.Machine
end

section
/-! SUPPORT. Loads, stores and LEA (42_load_store.md R90 to R97): the effective addresses as signed moves, when a read completes, and
what each instruction answers once its reads are known. -/

namespace Sys2Proof.Machine

/-! ## Effective addresses (R97) -/

theorem State.pcRelative_eq_wordPlus {n : Nat} (s : State) (off : BitVec n) (h1 : 1 ≤ n) (h16 : n ≤ 16) :
    s.pcRelative off = wordPlus s.pc off.toInt :=
  add_sext_eq_wordPlus s.pc off h1 h16

theorem State.basePlus_eq_wordPlus {n : Nat} (s : State) (baseR : Reg) (off : BitVec n) (h1 : 1 ≤ n) (h16 : n ≤ 16) :
    s.basePlus baseR off = wordPlus s.regs[baseR] off.toInt :=
  add_sext_eq_wordPlus s.regs[baseR] off h1 h16

/-- Settles O7: every offset is a sign-extended field of 1 to 16 bits added to a word. -/
theorem effectiveAddressesMoveBySignedOffset : Obligations.EffectiveAddressesMoveBySignedOffset :=
  fun s off9 off11 off6 baseR =>
    ⟨s.pcRelative_eq_wordPlus off9 (by decide) (by decide), s.pcRelative_eq_wordPlus off11 (by decide) (by decide),
      s.basePlus_eq_wordPlus baseR off6 (by decide) (by decide)⟩

/-! ## Reads that complete (R32, R47) -/

theorem State.memRead_regs {s t : State} {a v : Word} (h : s.memRead a = some (v, t)) : t.regs = s.regs := by
  obtain ⟨hregs, -⟩ := State.memRead_keeps h
  exact hregs

theorem State.CanRead.exists_memRead {s : State} {a : Word} (h : s.CanRead a) : ∃ v t, s.memRead a = some (v, t) := by
  match hm : s.memRead a with
  | some (v, t) => exact ⟨v, t, rfl⟩
  | none =>
    obtain ⟨ha, hc⟩ := State.memRead_none.1 hm
    exact absurd hc (h ha)

/-- A pointer that was itself read from KBSR is a status word (R20), so it never points at KBSR: the read through it cannot wait. -/
theorem State.canRead_of_memRead {s t : State} {a ptr : Word} (hw : s.mem.wf) (hm : s.memRead a = some (ptr, t))
    (hword : s.CanRead (s.word a)) : t.CanRead ptr := by
  by_cases ha : a = Config.kbsr
  · subst ha
    rcases State.memRead_kbsr_value hm hw with rfl | rfl <;> exact fun hk => absurd hk (by decide)
  · rw [s.memRead_plain a ha] at hm
    cases hm
    exact hword

/-! ## Loads (R90, R92, R94) -/

/-- The word read goes to the destination of the registers the instruction began with: a read writes none. -/
theorem State.setRegCC_of_memRead {s t : State} {a v : Word} (h : s.memRead a = some (v, t)) (dr : Reg) :
    t.setRegCC dr v = { t with regs := s.regs.set dr v, cond := signCond v } := by
  rw [State.setRegCC_eq_signCond, State.memRead_regs h]

theorem State.loadInto_of_memRead {s t : State} {ea v : Word} (h : s.memRead ea = some (v, t)) (dr : Reg) :
    s.loadInto dr ea = .next { t with regs := s.regs.set dr v, cond := signCond v } := by
  rw [State.loadInto, h, ← State.setRegCC_of_memRead h]

theorem execLdi_of_memRead {s t u : State} {off9 : BitVec 9} {ptr v : Word} (hp : s.memRead (s.pcRelative off9) = some (ptr, t))
    (hv : t.memRead ptr = some (v, u)) (dr : Reg) :
    execLdi dr off9 s = .next { u with regs := s.regs.set dr v, cond := signCond v } := by
  simp only [execLdi, hp, hv]
  rw [State.setRegCC_of_memRead hv, State.memRead_regs hp]

/-- A load whose read does not wait loads the word read. -/
theorem State.loadInto_of_canRead {s : State} {ea : Word} (dr : Reg) (h : s.CanRead ea) :
    ∃ v t, s.memRead ea = some (v, t) ∧ s.loadInto dr ea = .next { t with regs := s.regs.set dr v, cond := signCond v } := by
  obtain ⟨v, t, hm⟩ := h.exists_memRead
  exact ⟨v, t, hm, State.loadInto_of_memRead hm dr⟩

/-- Settles O17: LD and LDR are one load, at the two effective addresses. -/
theorem loadWritesWordReadAndCondition : Obligations.LoadWritesWordReadAndCondition := by
  intro dr baseR off9 off6 s
  rw [← s.pcRelative_eq_wordPlus off9 (by decide) (by decide), ← s.basePlus_eq_wordPlus baseR off6 (by decide) (by decide)]
  exact ⟨State.loadInto_of_canRead dr, State.loadInto_of_canRead dr⟩

/-- Settles O18: neither the read of the pointer nor the read through it waits. -/
theorem indirectLoadReadsPointerThenDatum : Obligations.IndirectLoadReadsPointerThenDatum := by
  intro dr off9 s hw hea hword
  rw [← s.pcRelative_eq_wordPlus off9 (by decide) (by decide)] at hea hword ⊢
  obtain ⟨ptr, t, hp⟩ := hea.exists_memRead
  obtain ⟨v, u, hv⟩ := (State.canRead_of_memRead hw hp hword).exists_memRead
  exact ⟨ptr, t, v, u, hp, hv, execLdi_of_memRead hp hv dr⟩

/-! ## Stores (R91, R93, R95) -/

theorem execSti_of_memRead {s u : State} {off9 : BitVec 9} {ptr : Word} (h : s.memRead (s.pcRelative off9) = some (ptr, u))
    (sr : Reg) : execSti sr off9 s = .next (u.memWrite ptr s.regs[sr]) := by
  rw [execSti, h, ← State.memRead_regs h, ← State.reg_eq]

/-- Settles O19: both forms are one write, which is plain storage of one word. -/
theorem storeWritesOneWord : Obligations.StoreWritesOneWord := fun sr baseR off9 off6 s hw =>
  ⟨⟨s.memWrite (s.pcRelative off9) s.regs[sr], rfl, writeIsPlainStorageEverywhere s _ _ hw⟩,
    ⟨s.memWrite (s.basePlus baseR off6) s.regs[sr], rfl, writeIsPlainStorageEverywhere s _ _ hw⟩⟩

/-- Settles O20: the write is plain storage in the state the read leaves, whose memory is canonical still. -/
theorem indirectStoreWritesAtThePointer : Obligations.IndirectStoreWritesAtThePointer := by
  intro sr off9 s hw hea
  obtain ⟨ptr, u, hp⟩ := hea.exists_memRead
  exact ⟨ptr, u, u.memWrite ptr s.regs[sr], hp, execSti_of_memRead hp sr,
    writeIsPlainStorageEverywhere u ptr _ (State.memRead_wf hp hw)⟩

/-! ## LEA (R96) -/

theorem exec_lea (dr : Reg) (off9 : BitVec 9) (s : State) : exec (.lea dr off9) s = .next (s.setRegCC dr (s.pcRelative off9)) := rfl

/-- Settles O21: the address itself is written, with its condition, and nothing is read. -/
theorem leaWritesAddressAndCondition : Obligations.LeaWritesAddressAndCondition := by
  intro dr off9 s
  rw [exec_lea, State.setRegCC_eq_signCond, s.pcRelative_eq_wordPlus off9 (by decide) (by decide)]

end Sys2Proof.Machine
end

section
/-! SUPPORT. Control transfer (43_control_transfer.md R100 to R108): the test of BR in the rule's own words, and where each instruction
leaves `pc`. -/

namespace Sys2Proof.Machine

/-! ## BR (R100) -/

/-- The mask meets the one-hot condition exactly where a set flag names the condition that holds. -/
theorem branchTaken_iff (n z p : Bool) (c : Cond) :
    branchTaken n z p c = true ↔ (n = true ∧ c = .n) ∨ (z = true ∧ c = .z) ∨ (p = true ∧ c = .p) := by
  cases c with
  | n | z | p => revert n z p; decide

/-- Both ways of a branch as one write of `pc`: a branch not taken writes back the incremented one. -/
theorem exec_br (n z p : Bool) (off9 : BitVec 9) (s : State) :
    exec (.br n z p off9) s = .next (s.setPc (if branchTaken n z p s.cond then s.pcRelative off9 else s.pc)) := by
  rw [exec, execBr]
  split_ifs <;> rfl

/-- Settles O22: a branch is one write of `pc`, chosen by the test in the rule's words. -/
theorem branchFollowsTheMask : Obligations.BranchFollowsTheMask := by
  intro n z p off9 s
  rw [exec_br, if_congr (branchTaken_iff n z p s.cond) rfl rfl, s.pcRelative_eq_wordPlus off9 (by decide) (by decide), State.setPc]

/-! ## JMP, JSR and JSRR (R101 to R103, R106) -/

theorem exec_jmp (baseR : Reg) (s : State) : exec (.jmp baseR) s = .next (s.setPc s.regs[baseR]) := rfl

theorem exec_jsr (off11 : BitVec 11) (s : State) :
    exec (.jsr off11) s = .next ((s.setReg 7 s.pc).setPc (s.pcRelative off11)) := rfl

/-- The base register is read in the state that already holds the link. -/
theorem exec_jsrr (baseR : Reg) (s : State) :
    exec (.jsrr baseR) s = .next ((s.setReg 7 s.pc).setPc ((s.setReg 7 s.pc).reg baseR)) := rfl

/-- Reading a register of a state after a write (R10). -/
theorem State.setReg_reg (s : State) (r q : Reg) (v : Word) : (s.setReg r v).reg q = if q = r then v else s.regs[q] := by
  rw [State.reg_eq, State.setReg_regs, regs_set_get, if_congr eq_comm rfl rfl]

/-- Settles O23. -/
theorem jumpGoesToTheRegister : Obligations.JumpGoesToTheRegister := exec_jmp

/-- Settles O24: the offset moves the incremented `pc`, which is the word linked. -/
theorem callLinksAndMovesByOffset : Obligations.CallLinksAndMovesByOffset := by
  intro off11 s
  rw [exec_jsr, s.pcRelative_eq_wordPlus off11 (by decide) (by decide)]
  rfl

/-- Settles O25: a read after the write of R7 is the link at R7 and the old word elsewhere. -/
theorem registerCallReadsTheBaseAfterTheLink : Obligations.RegisterCallReadsTheBaseAfterTheLink := by
  intro baseR s
  rw [exec_jsrr, State.setReg_reg]
  rfl

/-! ## RTI and RES (R104, R105) -/

theorem exec_rti (s : State) : exec .rti s = .next s := rfl

theorem exec_res (s : State) : exec .res s = .next s := rfl

/-- Settles O26. -/
theorem reservedOpcodesAreNoOps : Obligations.ReservedOpcodesAreNoOps := fun s => ⟨exec_rti s, exec_res s⟩

end Sys2Proof.Machine
end

section
/-! SUPPORT. The string services (44_trap_io.md R114, R117, R120): the bounded loop of the model is the unbounded loop of the rule, and a
string away from KBSR is written in order. -/

namespace Sys2Proof.Machine

/-! ## The bound is never used up (log 20) -/

/-- The reads from `a` upward that complete before one waits: up to KBSR without a line, and once around memory for every line. -/
def State.readsLeft (s : State) (a : Word) : Nat := (Config.kbsr - a).toNat + Config.memWords * s.consoleIn.length

/-- Away from KBSR the next address is one nearer to it. -/
theorem kbsr_sub_toNat {a : Word} (ha : a ≠ Config.kbsr) : (Config.kbsr - a).toNat = (Config.kbsr - (a + 1#16)).toNat + 1 := by
  unfold Config.kbsr at *
  bv_omega

/-- A read that completes is one of the reads left: it comes nearer to KBSR, or takes a line there and begins another round. -/
theorem State.readsLeft_of_memRead {s t : State} {a w : Word} (h : s.memRead a = some (w, t)) :
    s.readsLeft a = t.readsLeft (a + 1#16) + 1 := by
  unfold State.readsLeft
  obtain ⟨-, -, -, -, -, ⟨ha, rfl⟩ | ⟨rfl, line, hl⟩⟩ := State.memRead_keeps h
  · rw [kbsr_sub_toNat ha, Nat.add_right_comm]
  · have hround : (Config.kbsr - (Config.kbsr + 1#16)).toNat + 1 = Config.memWords := by decide
    rw [hl, List.length_cons, Nat.mul_succ, BitVec.sub_self, BitVec.toNat_zero, Nat.add_right_comm, hround]
    omega

theorem State.readsLeft_le_scanFuel (s : State) (a : Word) : s.readsLeft a ≤ s.scanFuel := by
  unfold State.readsLeft State.scanFuel Config.memWords
  have hlt := (Config.kbsr - a).isLt
  omega

/-- The loop ends at a zero word. -/
theorem State.scanString_of_zero {codes : Word → List Word} {fuel : Nat} {a : Word} {s t : State}
    (h : s.memRead a = some (0x0000#16, t)) : State.scanString codes (fuel + 1) a s = some t := by
  simp [State.scanString, h]

/-- The loop writes a word that is not zero and goes on at the next address. -/
theorem State.scanString_of_ne_zero {codes : Word → List Word} {fuel : Nat} {a w : Word} {s t : State}
    (h : s.memRead a = some (w, t)) (hw : w ≠ 0x0000#16) :
    State.scanString codes (fuel + 1) a s = State.scanString codes fuel (a + 1#16) (t.consoleWrite (codes w)) := by
  simp [State.scanString, h, hw]

section

variable {codes : Word → List Word} {a : Word} {s t : State}

/-- Every run of the loop of the rule fits into the reads that complete. -/
theorem StringScan.scanString_readsLeft (h : StringScan codes a s t) : State.scanString codes (s.readsLeft a) a s = some t := by
  induction h with
  | stop hm => rw [State.readsLeft_of_memRead hm, State.scanString_of_zero hm]
  | more hm hw _ ih => rw [State.readsLeft_of_memRead hm, State.scanString_of_ne_zero hm hw]; exact ih

/-- The bounded loop ends where the loop of the rule does (R114, R117). -/
theorem State.scanString_scanFuel_iff : State.scanString codes s.scanFuel a s = some t ↔ StringScan codes a s t :=
  ⟨State.stringScan_of_scanString, fun h => State.scanString_mono (s.readsLeft_le_scanFuel a) h.scanString_readsLeft⟩

/-- A string service whose loop ends answers the state at its end. -/
theorem State.writeString_of_stringScan (h : StringScan codes (s.reg dataReg) s t) : s.writeString codes = .next t := by
  rw [State.writeString, State.scanString_scanFuel_iff.2 h]

end

/-- Settles O37: the two loops have the same ends, so they also agree on having none. -/
theorem stringLoopIsNeverCutShort : Obligations.StringLoopIsNeverCutShort := fun codes a s =>
  ⟨by simp only [Option.eq_none_iff_forall_ne_some, ne_eq, State.scanString_scanFuel_iff, not_exists],
    fun _ => State.scanString_scanFuel_iff⟩

/-- Settles O33. -/
theorem putsRunsTheStringLoop : Obligations.PutsRunsTheStringLoop := fun _ _ => State.writeString_of_stringScan

/-! ## Packed words (R117) -/

/-- The low byte of a word is its remainder by 256. -/
theorem lowByte_eq_ofNat (w : Word) : (w.extractLsb' 0 8).zeroExtend 16 = BitVec.ofNat 16 (w.toNat % 256) := by
  apply BitVec.eq_of_toNat_eq
  simp

/-- The high byte of a word is its quotient by 256. -/
theorem highByte_eq_ofNat (w : Word) : (w.extractLsb' 8 8).zeroExtend 16 = BitVec.ofNat 16 (w.toNat / 256) := by
  have hlt := w.isLt
  apply BitVec.eq_of_toNat_eq
  rw [BitVec.toNat_setWidth, BitVec.extractLsb'_toNat, Nat.shiftRight_eq_div_pow, BitVec.toNat_ofNat]
  omega

theorem highByte_eq_zero_iff (w : Word) : w.extractLsb' 8 8 = 0#8 ↔ w.toNat / 256 = 0 := by
  have hlt := w.isLt
  rw [← BitVec.toNat_inj, BitVec.extractLsb'_toNat, Nat.shiftRight_eq_div_pow, BitVec.toNat_ofNat]
  omega

theorem packedCodes_eq (w : Word) :
    packedCodes w = BitVec.ofNat 16 (w.toNat % 256) :: (if w.toNat / 256 = 0 then [] else [BitVec.ofNat 16 (w.toNat / 256)]) := by
  rw [packedCodes, if_congr (highByte_eq_zero_iff w) rfl rfl, lowByte_eq_ofNat, highByte_eq_ofNat]
  split_ifs <;> rfl

/-- Settles O34: the two bytes are the remainder and the quotient by 256, and the loop is the one of PUTS with these codes. -/
theorem putspRunsThePackedStringLoop : Obligations.PutspRunsThePackedStringLoop :=
  ⟨packedCodes_eq, fun _ _ => State.writeString_of_stringScan⟩

/-! ## Strings away from KBSR (R36) -/

/-- The `k` words from `a` on. -/
def State.wordsFrom (s : State) (a : Word) (k : Nat) : List Word := (List.range k).map (fun j => s.word (a + BitVec.ofNat 16 j))

/-- The `j`-th address after the next one. -/
theorem next_add_ofNat (a : Word) (j : Nat) : a + 1#16 + BitVec.ofNat 16 j = a + BitVec.ofNat 16 (j + 1) := by
  rw [BitVec.add_assoc, Nat.add_comm j 1, BitVec.ofNat_add]

theorem State.wordsFrom_succ (s : State) (a : Word) (k : Nat) :
    s.wordsFrom a (k + 1) = s.word a :: s.wordsFrom (a + 1#16) k := by
  simp [State.wordsFrom, List.range_succ_eq_map, next_add_ofNat]

theorem State.consoleWrite_append (s : State) (l l' : List Word) : (s.consoleWrite l).consoleWrite l' = s.consoleWrite (l ++ l') := by
  simp [State.consoleWrite]

/-- The loop of the rule over `k` words that are not zero and a zero word, none of them at KBSR: every read is plain. -/
theorem stringScan_plain (codes : Word → List Word) {k : Nat} {a : Word} {s : State}
    (hw : ∀ j, j < k → s.word (a + BitVec.ofNat 16 j) ≠ 0x0000 ∧ a + BitVec.ofNat 16 j ≠ Config.kbsr)
    (hzero : s.word (a + BitVec.ofNat 16 k) = 0x0000) (hend : a + BitVec.ofNat 16 k ≠ Config.kbsr) :
    StringScan codes a s (s.consoleWrite ((s.wordsFrom a k).flatMap codes)) := by
  induction k generalizing a s with
  | zero =>
    rw [BitVec.add_zero] at hzero hend
    have hm := s.memRead_plain a hend
    rw [hzero] at hm
    simpa [State.wordsFrom, State.consoleWrite] using StringScan.stop hm
  | succ k ih =>
    obtain ⟨hne, hplain⟩ : s.word a ≠ 0x0000 ∧ a ≠ Config.kbsr := by simpa using hw 0 k.succ_pos
    rw [← next_add_ofNat] at hzero hend
    have hrest := ih (s := s.consoleWrite (codes (s.word a)))
      (fun j hj => by rw [next_add_ofNat]; exact hw (j + 1) (Nat.succ_lt_succ hj)) hzero hend
    rw [State.consoleWrite_append] at hrest
    rw [State.wordsFrom_succ, List.flatMap_cons]
    exact .more (s.memRead_plain a hplain) hne hrest

/-- Settles O36: the loop of the rule ends, by induction on the length of the string, and PUTS hands each word over as it is. -/
theorem plainStringsAreWrittenInOrder : Obligations.PlainStringsAreWrittenInOrder := by
  intro s k hw hzero hend
  have hscan (codes : Word → List Word) := stringScan_plain codes hw hzero hend
  have hputs := hscan (fun w => [w])
  rw [List.flatMap_singleton'] at hputs
  exact ⟨State.writeString_of_stringScan hputs, State.writeString_of_stringScan (hscan packedCodes)⟩

end Sys2Proof.Machine
end

section
/-! SUPPORT. TRAP and the services without a string (44_trap_io.md R110 to R123): the dispatch on the code, what each service answers, and
what every trap instruction leaves alone. -/

namespace Sys2Proof.Machine

/-! ## The dispatch (R110, R119) -/

theorem isServiceCode_eq_false_iff (v : BitVec 8) : isServiceCode v = false ↔ v.toNat < 0x20 ∨ 0x25 < v.toNat := by
  simp only [isServiceCode, Bool.and_eq_false_iff, decide_eq_false_iff_not, Nat.not_le]

/-- The row of a code does what the dispatch on the code does. -/
theorem exec_decodeTrap (v : BitVec 8) (s : State) : exec (decodeTrap v) s = exec (.trap v) s := by
  rcases execTrap_cases v s with ⟨rfl, he⟩ | ⟨rfl, he⟩ | ⟨rfl, he⟩ | ⟨rfl, he⟩ | ⟨rfl, he⟩ | ⟨rfl, he⟩ | ⟨hv, -⟩
  iterate 6 exact he.symm
  rw [decodeTrap_unknown v ((isServiceCode_eq_false_iff v).2 hv)]

/-- A TRAP word decodes to the row of its code, whatever its ignored bits (R55). -/
theorem decode_trapWord (ignored : BitVec 4) (v : BitVec 8) : decode (0xF#4 ++ ignored ++ v) = decodeTrap v := by
  obtain ⟨hop, hcode⟩ := fields_4_4_8 (w := 0xF#4 ++ ignored ++ v) rfl
  rw [decode_trap hop, hcode]

/-- Settles O28: the ignored bits are in neither field, and the code's row does what the dispatch does. -/
theorem trapWordsDispatchOnTheCode : Obligations.TrapWordsDispatchOnTheCode := fun ignored v s =>
  ⟨by rw [decode_trapWord, exec_decodeTrap], decode_trapWord ignored 0x20, decode_trapWord ignored 0x21,
    decode_trapWord ignored 0x22, decode_trapWord ignored 0x23, decode_trapWord ignored 0x24, decode_trapWord ignored 0x25⟩

/-- A code of no service ends the run Faulted (R119). -/
theorem execTrap_of_unknown {v : BitVec 8} (h : isServiceCode v = false) (s : State) : execTrap v s = .next (s.stop .faulted) :=
  execTrap_of_wf (by rw [Instr.wf, h]; rfl) s

/-- Settles O27. -/
theorem unknownTrapCodeFaultsTheRun : Obligations.UnknownTrapCodeFaultsTheRun := fun s v hv =>
  ⟨execTrap_of_unknown ((isServiceCode_eq_false_iff v).2 hv) s, rfl⟩

/-! ## GETC and IN (R112, R115, R121) -/

theorem State.readCharacter_of_character {s : State} {c : Word} {cs : Line} {rest : List Line} (echo : Word → List Word)
    (hc : s.consoleIn = (c :: cs) :: rest) :
    s.readCharacter echo = .next { s with regs := s.regs.set 0 c, consoleIn := rest, consoleOut := s.consoleOut ++ echo c } := by
  rw [State.readCharacter, State.consoleReadLine, hc]
  rfl

theorem State.readCharacter_of_empty_line {s : State} {rest : List Line} (echo : Word → List Word)
    (hc : s.consoleIn = [] :: rest) : s.readCharacter echo = .refused .noFirstCharacter := by
  rw [State.readCharacter, State.consoleReadLine, hc]

/-- Settles O29: both services read a character; the echo of GETC is empty. -/
theorem characterReadTakesOneLine : Obligations.CharacterReadTakesOneLine := by
  intro s c cs rest hc
  have hgetc := State.readCharacter_of_character (fun _ => []) hc
  rw [List.append_nil] at hgetc
  exact ⟨hgetc, State.readCharacter_of_character _ hc⟩

/-- Settles O30. -/
theorem characterReadOfEmptyLineIsRefused : Obligations.CharacterReadOfEmptyLineIsRefused := fun _ _ hc =>
  ⟨State.readCharacter_of_empty_line _ hc, State.readCharacter_of_empty_line _ hc⟩

/-! ## HALT and OUT (R113, R118) -/

theorem exec_halt (s : State) : exec .halt s = .next ((s.consoleWrite Config.haltNotice).stop .halted) := rfl

theorem exec_out (s : State) : exec .out s = .next (s.consoleWrite [s.regs[(0 : Reg)], Config.newline]) := rfl

/-- Settles O31. -/
theorem haltWritesTheNoticeAndEndsTheRun : Obligations.HaltWritesTheNoticeAndEndsTheRun := fun s => ⟨exec_halt s, rfl⟩

/-- Settles O32. -/
theorem outWritesTheWordAndNewline : Obligations.OutWritesTheWordAndNewline := exec_out

/-! ## What every trap instruction leaves alone (R123) -/

/-- The tables give a trap instruction no condition destination, no register but R0, and no store address (R11, R17). -/
theorem trap_writes_only_dataReg {i : Instr} (hi : i.opcode = .trap) (s : State) :
    condReg i = none ∧ (∀ r : Reg, r ≠ 0 → writtenReg i ≠ some r) ∧ storeAddress s i = none := by
  cases i with
  | getc | inEcho => exact ⟨rfl, fun r hr h => hr (Option.some.inj h).symm, rfl⟩
  | out | puts | putsp | halt => exact ⟨rfl, nofun, rfl⟩
  | trap v =>
    refine ⟨rfl, fun r hr h => ?_, rfl⟩
    rw [writtenReg] at h
    split_ifs at h
    exact hr (Option.some.inj h).symm
  | _ => cases hi

theorem State.readCharacter_mem {s t : State} {echo : Word → List Word} (h : s.readCharacter echo = .next t) : t.mem = s.mem := by
  rcases State.readCharacter_next h with ⟨-, rfl⟩ | ⟨c, cs, rest, -, rfl⟩
  · rfl
  · rfl

/-- Settles O40: the tables leave the condition code and the registers but R0; a word changes by a poll alone, and a trap instruction
without a string reads no memory. -/
theorem trapsKeepConditionLinkAndMemory : Obligations.TrapsKeepConditionLinkAndMemory := by
  intro i s t hw hi h
  obtain ⟨hcond, hreg, hstore⟩ := trap_writes_only_dataReg hi s
  refine ⟨(kept_cond hcond s.cond).exec rfl h, fun r hr => (kept_register (hreg r hr) s.regs[r]).exec rfl h, fun a hk hd => ?_, ?_⟩
  · by_contra hne
    rcases memoryChangesOnlyByStoreOrPoll i s t hw h a hne with ha | ⟨ha | ha, -⟩
    · rw [hstore] at ha; cases ha
    · exact hk ha
    · exact hd ha
  · rintro (rfl | rfl | rfl | rfl | ⟨v, rfl, hv⟩)
    · exact State.readCharacter_mem h
    · cases h; rfl
    · exact State.readCharacter_mem h
    · cases h; rfl
    · change execTrap v s = _ at h
      rw [execTrap_of_unknown hv] at h
      cases h; rfl

end Sys2Proof.Machine
end

section
/-! SUPPORT. Exceptions (60_exceptions.md R130, R135): LDI takes at most one line, and a running core's step answers a next state but for
GETC or IN on an empty line. -/

namespace Sys2Proof.Machine

/-! ## The lines LDI takes (R135) -/

/-- A read leaves the lines to come, or takes the first at KBSR (R32, R33). -/
theorem State.memRead_consoleIn {s t : State} {a v : Word} (h : s.memRead a = some (v, t)) :
    t.consoleIn = s.consoleIn ∨ (a = Config.kbsr ∧ t.consoleIn = s.consoleIn.drop 1) := by
  obtain ⟨-, -, -, -, -, ⟨-, rfl⟩ | ⟨ha, line, hl⟩⟩ := State.memRead_keeps h
  · exact .inl rfl
  · exact .inr ⟨ha, by rw [hl, List.drop_one, List.tail_cons]⟩

/-- A pointer read from KBSR is a status word and does not point at KBSR (R20). -/
theorem State.memRead_kbsr_ne_kbsr {s t : State} {ptr : Word} (h : s.memRead Config.kbsr = some (ptr, t)) (hw : s.mem.wf) :
    ptr ≠ Config.kbsr := by
  rcases State.memRead_kbsr_value h hw with rfl | rfl <;> decide

/-- Of a read and a read through the pointer it gives, one polls at most (R135). -/
theorem State.memRead_memRead_consoleIn {s t u : State} {a ptr v : Word} (hw : s.mem.wf) (hp : s.memRead a = some (ptr, t))
    (hv : t.memRead ptr = some (v, u)) : u.consoleIn = s.consoleIn ∨ u.consoleIn = s.consoleIn.drop 1 := by
  rcases State.memRead_consoleIn hp with ht | ⟨rfl, ht⟩
  · rw [← ht]
    exact (State.memRead_consoleIn hv).imp_right And.right
  · rcases State.memRead_consoleIn hv with hu | ⟨hk, -⟩
    · exact .inr (hu.trans ht)
    · exact absurd hk (State.memRead_kbsr_ne_kbsr hp hw)

/-- Settles O42: LDI waits and takes no line, or completes its two reads, of which one polls at most. -/
theorem indirectLoadPollsAtMostOnce : Obligations.IndirectLoadPollsAtMostOnce := by
  intro dr off9 s t hw h
  rcases execLdi_next h with rfl | ⟨ptr, u, v, x, hp, hv, rfl⟩
  · exact .inl rfl
  · exact (State.memRead_memRead_consoleIn hw hp hv :)

/-! ## Instructions that always answer a next state (R130) -/

theorem State.loadInto_exists_next (s : State) (dr : Reg) (ea : Word) : ∃ t, s.loadInto dr ea = .next t := by
  unfold State.loadInto
  split
  · exact ⟨_, rfl⟩
  · exact ⟨_, rfl⟩

theorem execLdi_exists_next (dr : Reg) (off9 : BitVec 9) (s : State) : ∃ t, execLdi dr off9 s = .next t := by
  unfold execLdi
  split
  · exact ⟨_, rfl⟩
  · split
    · exact ⟨_, rfl⟩
    · exact ⟨_, rfl⟩

theorem execSti_exists_next (sr : Reg) (off9 : BitVec 9) (s : State) : ∃ t, execSti sr off9 s = .next t := by
  unfold execSti
  split
  · exact ⟨_, rfl⟩
  · exact ⟨_, rfl⟩

theorem State.writeString_exists_next (s : State) (codes : Word → List Word) : ∃ t, s.writeString codes = .next t := by
  unfold State.writeString
  split
  · exact ⟨_, rfl⟩
  · exact ⟨_, rfl⟩

/-- A character is read, waited for, or refused by an empty line (R121, R122). -/
theorem State.readCharacter_next_or_refused (s : State) (echo : Word → List Word) :
    (∃ t, s.readCharacter echo = .next t) ∨
    (s.readCharacter echo = .refused .noFirstCharacter ∧ ∃ rest, s.consoleIn = [] :: rest) := by
  match hc : s.consoleIn with
  | [] => exact .inl ⟨_, State.readCharacter_of_no_line echo hc⟩
  | [] :: rest => exact .inr ⟨State.readCharacter_of_empty_line echo hc, rest, rfl⟩
  | (c :: cs) :: rest => exact .inl ⟨_, State.readCharacter_of_character echo hc⟩

/-- An instruction of the decoder answers a next state, or it is GETC or IN and an empty line refuses it (R121, R130). -/
theorem exec_next_or_refused {i : Instr} (hi : i.wf = true) (s : State) :
    (∃ t, exec i s = .next t) ∨
    (exec i s = .refused .noFirstCharacter ∧ (∃ rest, s.consoleIn = [] :: rest) ∧ (i = .getc ∨ i = .inEcho)) := by
  cases i with
  | getc => exact (s.readCharacter_next_or_refused _).imp_right fun ⟨hr, hline⟩ => ⟨hr, hline, .inl rfl⟩
  | inEcho => exact (s.readCharacter_next_or_refused _).imp_right fun ⟨hr, hline⟩ => ⟨hr, hline, .inr rfl⟩
  | br n z p off9 => exact .inl ⟨_, exec_br n z p off9 s⟩
  | ld | ldr => exact .inl (s.loadInto_exists_next _ _)
  | ldi dr off9 => exact .inl (execLdi_exists_next dr off9 s)
  | sti sr off9 => exact .inl (execSti_exists_next sr off9 s)
  | puts | putsp => exact .inl (s.writeString_exists_next _)
  | trap v => exact .inl ⟨_, execTrap_of_wf hi s⟩
  | addReg | addImm | andReg | andImm | not | lea | st | str | jsr | jsrr | jmp | rti | res | out | halt => exact .inl ⟨_, rfl⟩

/-! ## The step -/

/-- A step that stands at KBSR waits, or polls and moves on (R47, R71). -/
theorem step_exists_next_of_kbsr {s : State} (hw : s.mem.wf) (hr : s.run = .running) (hpc : s.pc = Config.kbsr) :
    ∃ t, step s = .next t := by
  match hm : s.memRead Config.kbsr with
  | none =>
    have htop : s.pc ≠ Config.topAddress := by rw [hpc]; decide
    obtain ⟨-, hc⟩ := State.memRead_none.1 hm
    exact ⟨s, step_of_fetch_waits ⟨hr, htop⟩ hpc hc⟩
  | some (w, u) => exact ⟨_, step_of_kbsr_fetch hw hr hpc hm⟩

/-- Settles O47: at the top address and at KBSR a step always answers a next state; elsewhere it answers what the decoded instruction
does, and only GETC or IN is refused. -/
theorem runningStepFailsOnlyForEmptyLine : Obligations.RunningStepFailsOnlyForEmptyLine := by
  intro s hw hr
  by_cases htop : s.pc = Config.topAddress
  · exact .inl ⟨_, step_of_top hr htop⟩
  · by_cases hk : s.pc = Config.kbsr
    · exact .inl (step_exists_next_of_kbsr hw hr hk)
    · rw [step_of_plain_fetch ⟨hr, htop⟩ hk]
      obtain ⟨hwf, -⟩ := everyWordMatchesItsMostSpecificRow (s.word s.pc)
      exact (exec_next_or_refused hwf _).imp_right fun ⟨hrefused, hline, hi⟩ => ⟨hrefused, htop, hline, hi⟩

end Sys2Proof.Machine
end

section
/-! SUPPORT. Reset (70_reset_and_hazards.md R150 to R154): the bytes of an image parse back to its words, direct storage puts each word at
its address and keeps every other one, and what `boot` makes of a well-formed and of a malformed image. -/

namespace Sys2Proof.Machine

/-! ## Parsing (R150, R154) -/

theorem imageBytes_cons (w : Word) (ws : List Word) :
    imageBytes (w :: ws) = w.extractLsb' 8 8 :: w.extractLsb' 0 8 :: imageBytes ws := rfl

/-- The two bytes of a word, the high one first, are the word. -/
theorem highByte_append_lowByte (w : Word) : w.extractLsb' 8 8 ++ w.extractLsb' 0 8 = w :=
  (BitVec.extractLsb'_append_extractLsb'_eq_extractLsb' (start₁ := 0) (len₁ := 8) rfl).trans BitVec.extractLsb'_eq_self

/-- Parsing undoes the image's byte order. -/
theorem imageWords_imageBytes (words : List Word) : imageWords (imageBytes words) = some words := by
  induction words with
  | nil => rfl
  | cons w ws ih => rw [imageBytes_cons, imageWords, ih, highByte_append_lowByte]

/-- Exactly the streams of odd length end mid-word. -/
theorem imageWords_eq_none_iff (b : List Byte) : imageWords b = none ↔ b.length % 2 = 1 := by
  induction b using imageWords.induct with
  | case1 => simp [imageWords]
  | case2 => simp [imageWords]
  | case3 hi lo rest hrest ih => simpa [imageWords, hrest, Nat.add_assoc] using ih
  | case4 hi lo rest ws hrest ih => simpa [imageWords, hrest, Nat.add_assoc] using ih

/-! ## Direct storage (R151, R152) -/

/-- Storage leaves the addresses below and above the words alone. -/
theorem read_placeWords_outside {words : List Word} {m : Memory} {a b : Nat} (hb : b < a ∨ a + words.length ≤ b) :
    (placeWords m a words).read b = m.read b := by
  induction words generalizing m a with
  | nil => rfl
  | cons w ws ih =>
    rw [List.length_cons] at hb
    calc (placeWords (m.write a w) (a + 1) ws).read b
      _ = (m.write a w).read b := ih (by omega)
      _ = m.read b := Memory.read_write_other m a b w (by omega)

/-- Storage inside memory keeps the canonical form. -/
theorem placeWords_wf {words : List Word} {m : Memory} {a : Nat} (hm : m.wf) (ha : a + words.length ≤ Config.memWords) :
    (placeWords m a words).wf := by
  induction words generalizing m a with
  | nil => exact hm
  | cons w ws ih =>
    rw [List.length_cons] at ha
    exact ih (Memory.write_wf m a w (by omega) hm) (by omega)

/-- Storage puts the words at consecutive addresses. -/
theorem read_placeWords_inside {words : List Word} {m : Memory} {a k : Nat} (hm : m.wf) (ha : a + words.length ≤ Config.memWords)
    (hk : k < words.length) : (placeWords m a words).read (a + k) = words[k] := by
  induction words generalizing m a k with
  | nil => exact absurd hk (Nat.not_lt_zero k)
  | cons w ws ih =>
    rw [List.length_cons] at ha hk
    have hwf : (m.write a w).wf := Memory.write_wf m a w (by omega) hm
    cases k with
    | zero => exact (read_placeWords_outside (.inl (Nat.lt_succ_self a))).trans (Memory.read_write_same m a w hm.1)
    | succ k =>
      have hfit : a + 1 + ws.length ≤ Config.memWords := by omega
      have hread := ih hwf hfit (Nat.lt_of_succ_lt_succ hk)
      rwa [Nat.add_right_comm] at hread

/-! ## The reset sequence (R151, R152, R154) -/

theorem boot_truncated (p : OpenReset) (lines : List Line) {b : List Byte} (hb : b.length < 2) :
    boot p lines (.bytes b) = .error .truncated := if_pos hb

theorem boot_oddLength (p : OpenReset) (lines : List Line) {b : List Byte} (hb : 2 ≤ b.length) (hodd : b.length % 2 = 1) :
    boot p lines (.bytes b) = .error .oddLength := by
  simp [boot, Nat.not_lt.2 hb, (imageWords_eq_none_iff b).2 hodd]

/-- Whole words after an origin make a core exactly when they fit. -/
theorem boot_imageBytes (p : OpenReset) (lines : List Line) (origin : Word) (words : List Word) :
    boot p lines (.bytes (imageBytes (origin :: words))) =
      if origin.toNat + words.length ≤ Config.memWords then .ok (bootState p lines origin words) else .error .pastTop := by
  have hlen : ¬ (imageBytes (origin :: words)).length < 2 := by simp [imageBytes_cons]
  rw [boot, if_neg hlen, imageWords_imageBytes]

/-- Settles O51: the length alone decides which load error a malformed stream gives. -/
theorem malformedImagesMakeNoCore : Obligations.MalformedImagesMakeNoCore := fun p lines =>
  ⟨rfl, fun _ => boot_truncated p lines, fun _ => boot_oddLength p lines⟩

/-- Settles O52: the words parse, and the bound of placement fails. -/
theorem imagePastTheTopIsRefused : Obligations.ImagePastTheTopIsRefused := fun p lines origin words h =>
  (boot_imageBytes p lines origin words).trans (if_neg (Nat.not_le.2 h))

/-- The address of the `k`th word of an image that fits does not wrap (R152). -/
theorem toNat_origin_add {origin : Word} {k n : Nat} (hfit : origin.toNat + n ≤ Config.memWords) (hk : k < n) :
    (origin + BitVec.ofNat 16 k).toNat = origin.toNat + k := by
  have hlt : origin.toNat + k < 2 ^ 16 := Nat.lt_of_lt_of_le (Nat.add_lt_add_left hk _) hfit
  rw [BitVec.toNat_add, BitVec.toNat_ofNat, Nat.add_mod_mod, Nat.mod_eq_of_lt hlt]

/-- Settles O50: the image parses back to its words, and direct storage places them without wrapping. -/
theorem bootPlacesTheImage : Obligations.BootPlacesTheImage := by
  intro p lines origin words hm hfit
  refine ⟨bootState p lines origin words, (boot_imageBytes p lines origin words).trans (if_pos hfit), rfl, rfl, rfl, rfl, rfl, rfl,
    fun k hk => ?inside, fun a ha => read_placeWords_outside ha, placeWords_wf hm hfit, fun hrun => nomatch hrun⟩
  case inside =>
    rw [State.word, toNat_origin_add hfit hk]
    exact read_placeWords_inside hm hfit hk

/-- Settles O53: the two bytes are the origin word alone, and it fits. -/
theorem hostResetIsTheEmptyImage : Obligations.HostResetIsTheEmptyImage := ⟨rfl, rfl, rfl⟩

/-- Settles O55: the empty memory is canonical, and the run goes on. -/
theorem resetMeetsTheInvariant : Obligations.ResetMeetsTheInvariant := ⟨Memory.nil_wf, fun hrun => nomatch hrun⟩

end Sys2Proof.Machine
end
